-- ==== Sys2Proof/Word.lean ====
section
/-! DEFINITION. The word types of the pytoy2 CORE (spec/00_scope.md R6, spec/30_encoding.md R91). -/

namespace Sys2Proof

/-- A 16-bit unsigned machine word; arithmetic wraps modulo 65536 (R6). -/
abbrev Word := BitVec 16

/-- Half of a word: the unit in which the memory's cells and a program image file are held (R272, log 1). -/
abbrev Byte := BitVec 8

/-- A 4-bit field of an instruction word (R91). -/
abbrev Nibble := BitVec 4

/-- A register index: a 4-bit field, so no index is out of range (R24, D17). -/
abbrev Reg := BitVec 4

/-- The 8-bit immediate or direct address of an instruction (R93). -/
abbrev Addr8 := BitVec 8

end Sys2Proof
end

