-- ==== Sys2Proof/Config.lean ====
section
/-! DEFINITION. The implementation parameters of spec/00_scope.md R5. All are constants of the block; none is
configurable and no value of this hardware is free. -/

namespace Sys2Proof.Config

/-- NREG: general registers, indices 0 to 15 (R5, R21). -/
def nreg : Nat := 16

/-- MEM_WORDS: RAM cells, addresses 0 to 254 (R5, R29). -/
def memWords : Nat := 255

/-- IO_ADDR: the one address that is the I/O port (R5, R51). -/
def ioAddr : Nat := 255

/-- RESET_PC: the pc at reset and at the start of execution (R5, R34). -/
def resetPc : Word := 16#16

/-- LOAD_ADDR: the first cell the loader writes (R5, R271). -/
def loadAddr : Nat := 16

/-- The longest program image: the 239 cells from 16 to 254 (R271, D10). -/
def maxImage : Nat := 239

/-- SHIFT_MOD: a shift amount is reduced modulo this value (R5, R127). -/
def shiftMod : Nat := 16

/-- IN_MIN: the lowest value an input is clamped to (R5, R58). -/
def inMin : Int := -32768

/-- IN_MAX: the highest value an input is clamped to (R5, R58). -/
def inMax : Int := 32767

/-- What a byte of memory that nothing has written reads as: memory is zero at reset (R34). -/
def unlistedByte : Byte := 0#8

end Sys2Proof.Config
end

