-- ==== Sys2Proof/Machine/Alu.lean ====
section
/-! DEFINITION. The ALU of spec/40_alu.md, from the one-bit primitives up. `Add` and `Sub` are the bit recurrences
of R123 and R124, as R120 asks; their closed forms are theorems. No operation makes a flag (R130). -/

namespace Sys2Proof.Machine

/-- The pair a one-bit adder returns. -/
structure SumCarry where
  sum : Bool
  carry : Bool
  deriving DecidableEq, Repr

/-- Half adder: `sum = a xor b`, `carry = a and b` (R121). -/
def halfAdder (a b : Bool) : SumCarry := ⟨a ^^ b, a && b⟩

/-- Full adder: two half adders and an OR gate (R122, G1, log 17). -/
def fullAdder (a b cin : Bool) : SumCarry :=
  let h₁ := halfAdder a b
  let h₂ := halfAdder h₁.sum cin
  ⟨h₂.sum, h₁.carry || h₂.carry⟩

/-- The carry into stage `i` of the chain over the operand bits `a` and `b`: `c[0]` is the carry in, `c[i+1]` the
carry out of stage `i` (R123). -/
def rippleCarry (a b : Nat → Bool) (cin : Bool) : Nat → Bool
  | 0 => cin
  | i + 1 => (fullAdder (a i) (b i) (rippleCarry a b cin i)).carry

/-- The first `n` stages of the chain: the word with bits `r[0]` to `r[n-1]` (R123). The carry out of the last
stage is dropped (R130). -/
def rippleSum (a b : Nat → Bool) (cin : Bool) : Nat → Word
  | 0 => 0#16
  | i + 1 =>
    let r := (fullAdder (a i) (b i) (rippleCarry a b cin i)).sum
    rippleSum a b cin i ||| ((BitVec.ofBool r).setWidth 16 <<< i)

/-- `Add(a, b)`: the ripple chain with carry in 0 (R123). -/
def aluAdd (a b : Word) : Word := rippleSum a.getLsbD b.getLsbD false 16

/-- `Sub(a, b)`: the same chain with carry in 1 and the second operand's bits inverted before each full adder
(R124). -/
def aluSub (a b : Word) : Word := rippleSum a.getLsbD (fun i => !b.getLsbD i) true 16

/-- `And(a, b)`, bitwise (R125). -/
def aluAnd (a b : Word) : Word := a &&& b

/-- `Xor(a, b)`, bitwise (R126). -/
def aluXor (a b : Word) : Word := a ^^^ b

/-- The amount a shift by the word `b` uses: `b mod 16` (R127, D3, log 13). -/
def shiftAmount (b : Word) : Nat := b.toNat % Config.shiftMod

/-- `Shiftl(a, b)`: logical, zeros enter at bit 0 (R128). -/
def aluShiftl (a b : Word) : Word := a <<< shiftAmount b

/-- `Shiftr(a, b)`: logical, zeros enter at bit 15 (R129). -/
def aluShiftr (a b : Word) : Word := a >>> shiftAmount b

end Sys2Proof.Machine
end

