-- ==== Sys2Proof/Syntax.lean ====
section
/-! DEFINITION. The instruction set of spec/30_encoding.md R94: 16 opcodes, one constructor of `Instr` each, with
the fields that R92 and R100 give it. Fields that an instruction ignores (R96) are not part of it. -/

namespace Sys2Proof

/-- The 16 opcodes, in the order of the opcode map (R94). -/
inductive Opcode where
  | halt | add | sub | and | xor | shl | shr | loada
  | load | stor | loadi | stori | bzero | bposi | jmpr | jmpl
  deriving DecidableEq, Repr

/-- The five overlapping fields that decode extracts from every instruction word (R91). -/
structure Fields where
  opcode : Nibble
  d : Reg
  s : Reg
  t : Reg
  addr : Addr8
  deriving DecidableEq, Repr

/-- An instruction: one constructor per row of the opcode map (R94, R100). -/
inductive Instr where
  /-- HALT, opcode 0x0 (R200). -/
  | halt
  /-- ADD, opcode 0x1 (R180). -/
  | add (d s t : Reg)
  /-- SUB, opcode 0x2 (R181). -/
  | sub (d s t : Reg)
  /-- AND, opcode 0x3 (R182). -/
  | and (d s t : Reg)
  /-- XOR, opcode 0x4 (R183). -/
  | xor (d s t : Reg)
  /-- SHL, opcode 0x5 (R184). -/
  | shl (d s t : Reg)
  /-- SHR, opcode 0x6 (R185). -/
  | shr (d s t : Reg)
  /-- LOADA, opcode 0x7: immediate load (R190). -/
  | loada (d : Reg) (addr : Addr8)
  /-- LOAD, opcode 0x8: direct load (R191). -/
  | load (d : Reg) (addr : Addr8)
  /-- STOR, opcode 0x9: direct store of register `d` (R192). -/
  | stor (d : Reg) (addr : Addr8)
  /-- LOADI, opcode 0xA: load from the address in register `t` (R193). -/
  | loadi (d t : Reg)
  /-- STORI, opcode 0xB: store register `d` at the address in register `t` (R194). -/
  | stori (d t : Reg)
  /-- BZERO, opcode 0xC: branch if register `d` is zero (R201). -/
  | bzero (d : Reg) (addr : Addr8)
  /-- BPOSI, opcode 0xD: branch if register `d` is not zero (R202). -/
  | bposi (d : Reg) (addr : Addr8)
  /-- JMPR, opcode 0xE: jump to the address in register `t` (R203). -/
  | jmpr (t : Reg)
  /-- JMPL, opcode 0xF: link in register `d` and jump (R204). -/
  | jmpl (d : Reg) (addr : Addr8)
  deriving DecidableEq, Repr

/-- The opcode of an instruction (R94). -/
def Instr.opcode : Instr → Opcode
  | .halt => .halt
  | .add _ _ _ => .add
  | .sub _ _ _ => .sub
  | .and _ _ _ => .and
  | .xor _ _ _ => .xor
  | .shl _ _ _ => .shl
  | .shr _ _ _ => .shr
  | .loada _ _ => .loada
  | .load _ _ => .load
  | .stor _ _ => .stor
  | .loadi _ _ => .loadi
  | .stori _ _ => .stori
  | .bzero _ _ => .bzero
  | .bposi _ _ => .bposi
  | .jmpr _ => .jmpr
  | .jmpl _ _ => .jmpl

/-- The register operands of an instruction, in the order the assembler notation writes them (R98). -/
def Instr.regOperands : Instr → List Reg
  | .halt => []
  | .add d s t => [d, s, t]
  | .sub d s t => [d, s, t]
  | .and d s t => [d, s, t]
  | .xor d s t => [d, s, t]
  | .shl d s t => [d, s, t]
  | .shr d s t => [d, s, t]
  | .loada d _ => [d]
  | .load d _ => [d]
  | .stor d _ => [d]
  | .loadi d t => [d, t]
  | .stori d t => [d, t]
  | .bzero d _ => [d]
  | .bposi d _ => [d]
  | .jmpr t => [t]
  | .jmpl d _ => [d]

/-- The immediate or direct address of an instruction of format A (R92, R98). -/
def Instr.addrOperands : Instr → List Addr8
  | .halt => []
  | .add _ _ _ => []
  | .sub _ _ _ => []
  | .and _ _ _ => []
  | .xor _ _ _ => []
  | .shl _ _ _ => []
  | .shr _ _ _ => []
  | .loada _ a => [a]
  | .load _ a => [a]
  | .stor _ a => [a]
  | .loadi _ _ => []
  | .stori _ _ => []
  | .bzero _ a => [a]
  | .bposi _ a => [a]
  | .jmpr _ => []
  | .jmpl _ a => [a]

end Sys2Proof
end

