-- ==== Sys2Proof/Machine/State.lean ====
section
/-! DEFINITION. The state of the machine: the core's own state, exactly the list of spec/10_state.md R20, and the
environment a step reads and writes (R33, R163; logs 2, 5, 6). -/

namespace Sys2Proof.Machine

/-- The two states of the CPU state machine; `halted` is terminal (R30, R150). -/
inductive RunState where
  | running
  | halted
  deriving DecidableEq, Repr

/-- The kind of bus access that raised IllegalAddress (R31, R242, D7). -/
inductive AccessKind where
  | fetch
  | load
  | store
  deriving DecidableEq, Repr

/-- Why the machine halted (R31, D7). -/
inductive HaltCause where
  /-- The machine is running. -/
  | none
  /-- A HALT instruction. -/
  | explicit
  /-- An IllegalAddress, with the kind of access and the offending address. -/
  | addressFault (kind : AccessKind) (a : Word)
  deriving DecidableEq, Repr

/-- The structured events the core emits to the trace sink (R161, D11). -/
inductive Event where
  /-- EvFetch: once per successful fetch, with the five fields of the word. -/
  | fetch (pc w : Word) (f : Fields)
  /-- EvInput: once per input-device call, the raw value and the word after clamping and encoding. -/
  | input (raw : Int) (word : Word)
  /-- EvMemRead: once per data read of LOAD or LOADI at a RAM address. -/
  | memRead (a v : Word)
  /-- EvMemWrite: once per data write of STOR or STORI at a RAM address. -/
  | memWrite (a v : Word)
  /-- EvOutput: once per output-device call, the word and the value sent. -/
  | output (word : Word) (value : Int)
  /-- EvHalt: once when the machine halts. -/
  | halt (cause : HaltCause)
  deriving DecidableEq, Repr

/-- The memory image: the bytes that differ from the reset contents, addresses strictly rising. Cell `M[a]` of
R29 is the two bytes at `2 * a` (bits 15 to 8) and `2 * a + 1` (bits 7 to 0); nothing but whole cells can be
accessed (R60, log 1). -/
abbrev Memory := List Host.Cell

/-- The machine: the core's state (R20), then the environment around it (R33). Register 0 has no storage (R22). -/
structure State where
  /-- `x[1]` to `x[15]`, `x[i]` at position `i - 1` (R21, R22). -/
  regs : Vector Word 15
  /-- The program counter, any Word between steps (R26, R28). -/
  pc : Word
  /-- The memory image (R29). -/
  mem : Memory
  /-- Running or halted (R30). -/
  run : RunState
  /-- The halt-cause status (R31). -/
  haltCause : HaltCause
  /-- ENVIRONMENT: what the input device will return from now on, the next value first (R70, D8, D13, log 2). -/
  pending : List Int
  /-- ENVIRONMENT: the values taken from the input device, oldest first (R8, log 5). -/
  consumed : List Int
  /-- ENVIRONMENT: the values the output device has received, oldest first (R8, R71, log 5). -/
  output : List Int
  /-- ENVIRONMENT: what the trace sink has received, oldest first (R161, log 6). -/
  trace : List Event
  deriving DecidableEq, Repr

/-- Reasons a step can fault. There are none: the one exception of this hardware, IllegalAddress, is an effect the
spec describes, a next state that is halted (R243, R257, log 9), so nothing ever raises a fault (safe). -/
inductive Fault where
  deriving DecidableEq, Repr

/-- Reasons a step can refuse. "Nothing in the hardware is refused: every word is an instruction with a meaning"
(R257). -/
inductive Refusal where
  /-- Raised by an arm of `exec` whose instruction has no meaning yet. Every instruction has one, so nothing
  raises it (safe). -/
  | notModelled (mnemonic : String)
  deriving DecidableEq, Repr

/-- The machine right after reset, which is construction (R34, R270): every register and cell zero, `pc` at 16,
running, no cause; and around it an environment in which nothing has happened and no input is supplied yet. -/
def State.reset : State where
  regs := Vector.replicate 15 0#16
  pc := Config.resetPc
  mem := []
  run := .running
  haltCause := .none
  pending := []
  consumed := []
  output := []
  trace := []

end Sys2Proof.Machine
end

