-- ==== Sys2Proof/Machine/Ops.lean ====
section
/-! DEFINITION. The named operations over registers, memory, devices and status: the register file of
spec/10_state.md R21 to R23, the memory bus of spec/20_memory.md R51 to R58 and R73, the halt and the one exception
of spec/60_exceptions.md R243. Each device call and RAM data access emits its trace event (R161). -/

namespace Sys2Proof.Machine

/-! ### The register file -/

/-- The place of register `i` in the stored bank; register 0 has none, and is never looked up (R22). -/
def regSlot (i : Reg) : Fin 15 := ⟨i.toNat - 1, by have := i.isLt; omega⟩

/-- `x[i]`: register 0 always reads zero, any other returns the word last written (R21, R22). -/
def State.readReg (s : State) (i : Reg) : Word := if i = 0#4 then 0#16 else s.regs[regSlot i]

/-- `x[i] <- v`: a write to register 0 is silently ignored (R23). -/
def State.writeReg (s : State) (i : Reg) (v : Word) : State :=
  if i = 0#4 then s else { s with regs := s.regs.set (regSlot i) v }

/-! ### The program counter -/

/-- `pc <- target` (R26, R157). -/
def State.setPc (s : State) (target : Word) : State := { s with pc := target }

/-- The address after the instruction's own, modulo 65536; the wrap is never reached by a fetched instruction
(R28, D16). -/
def State.nextPc (s : State) : Word := s.pc + 1#16

/-- `pc <- pc + 1` (R27). -/
def State.advance (s : State) : State := s.setPc s.nextPc

/-! ### The memory image -/

/-- The byte at byte address `k`; one that is not listed holds the reset contents (R34). -/
def Memory.readByte : Memory → Nat → Byte
  | [], _ => Config.unlistedByte
  | c :: m, k => if c.1 = k then c.2 else Memory.readByte m k

/-- Put a byte at its place in the rising order. -/
def Memory.insertByte (k : Nat) (v : Byte) : Memory → Memory
  | [] => [(k, v)]
  | c :: m => if k < c.1 then (k, v) :: c :: m else c :: Memory.insertByte k v m

/-- Write one byte and keep the canonical form: writing what an unlisted address reads as removes the entry. -/
def Memory.writeByte (m : Memory) (k : Nat) (v : Byte) : Memory :=
  let rest := m.filter (fun c => c.1 != k)
  if v = Config.unlistedByte then rest else Memory.insertByte k v rest

/-- Cell `M[a]`: its two bytes, bits 15 to 8 first (R29, log 1). -/
def Memory.readCell (m : Memory) (a : Nat) : Word := m.readByte (2 * a) ++ m.readByte (2 * a + 1)

/-- `M[a] := v`, all 16 bits (R55). -/
def Memory.writeCell (m : Memory) (a : Nat) (v : Word) : Memory :=
  (m.writeByte (2 * a) (v.extractLsb' 8 8)).writeByte (2 * a + 1) (v.extractLsb' 0 8)

/-- The canonical form: addresses strictly rising, no entry equal to what an unlisted address reads as, and only
the bytes of the 255 cells (R29). -/
abbrev Memory.wf (m : Memory) : Prop :=
  m.Pairwise (fun c d => c.1 < d.1) ∧ ∀ c ∈ m, c.2 ≠ Config.unlistedByte ∧ c.1 < 2 * Config.memWords

/-- `M[a]` of a state. -/
def State.cell (s : State) (a : Nat) : Word := s.mem.readCell a

/-- `M[a] := v` of a state. -/
def State.setCell (s : State) (a : Nat) (v : Word) : State := { s with mem := s.mem.writeCell a v }

/-! ### The trace sink -/

/-- Emit one event to the trace sink; the sink is write-only from the core's side (R161, R255). -/
def State.emit (s : State) (e : Event) : State := { s with trace := s.trace ++ [e] }

/-! ### The I/O boundary -/

/-- Clamp an input value into the signed 16-bit range (R58). -/
def clamp16 (v : Int) : Int :=
  if v < Config.inMin then Config.inMin else if v > Config.inMax then Config.inMax else v

/-- Encode a clamped value as a Word in two's complement (R58). -/
def enc16 (c : Int) : Word := BitVec.ofNat 16 (if c < 0 then c + 65536 else c).toNat

/-- Reinterpret a Word as a signed value (R58). -/
def dec16 (w : Word) : Int := if w.toNat ≥ 32768 then (w.toNat : Int) - 65536 else (w.toNat : Int)

/-- One call of the input device that returns `v`, the rest of its values to come: exactly one value is consumed
(R53, R70). -/
def State.takeInput (s : State) (v : Int) (rest : List Int) : State :=
  { s with pending := rest, consumed := s.consumed ++ [v] }.emit (.input v (enc16 (clamp16 v)))

/-- One call of the output device, which always accepts at once (R56, R71, D8). -/
def State.sendOutput (s : State) (w : Word) : State :=
  { s with output := s.output ++ [dec16 w] }.emit (.output w (dec16 w))

/-! ### The memory bus -/

/-- The three classes of bus address (R51). -/
inductive AddrClass where
  | ram
  | port
  | illegal
  deriving DecidableEq, Repr

/-- The class of a bus address: 0 to 254 RAM, 255 the I/O port, the rest illegal (R51). -/
def addrClass (a : Word) : AddrClass :=
  if a.toNat < Config.memWords then .ram else if a.toNat = Config.ioAddr then .port else .illegal

/-- What a bus read answers. -/
inductive BusRead where
  /-- The Word read and the state after the read. -/
  | value (w : Word) (s : State)
  /-- The input device has supplied no value: the read waits (R69). -/
  | waiting
  /-- The address is illegal (R54). -/
  | illegal
  deriving DecidableEq, Repr

/-- What a bus write answers. -/
inductive BusWrite where
  /-- The state after the write. -/
  | done (s : State)
  /-- The address is illegal (R57). -/
  | illegal
  deriving DecidableEq, Repr

/-- `MemRead(a, 1)`: the stored cell, one input value clamped and encoded, or illegal (R52, R53, R54, R73). -/
def State.memRead (s : State) (a : Word) : BusRead :=
  match addrClass a with
  | .ram => .value (s.cell a.toNat) s
  | .port =>
    match s.pending with
    | [] => .waiting
    | v :: rest => .value (enc16 (clamp16 v)) (s.takeInput v rest)
  | .illegal => .illegal

/-- The bus read of LOAD and LOADI: `memRead`, with the event of a data read at a RAM address (R161). -/
def State.dataRead (s : State) (a : Word) : BusRead :=
  match addrClass a with
  | .ram => .value (s.cell a.toNat) (s.emit (.memRead a (s.cell a.toNat)))
  | .port => s.memRead a
  | .illegal => .illegal

/-- `MemWrite(a, 1, v)`: store the cell, send one output value, or illegal (R55, R56, R57, R73). -/
def State.memWrite (s : State) (a v : Word) : BusWrite :=
  match addrClass a with
  | .ram => .done ((s.setCell a.toNat v).emit (.memWrite a v))
  | .port => .done (s.sendOutput v)
  | .illegal => .illegal

/-! ### Halting and the one exception -/

/-- Enter `Halted` with a cause: no other state changes (R30, R31). `Halted` is terminal, so there is no operation
that returns from it (R245). -/
def State.halt (s : State) (cause : HaltCause) : State :=
  { s with run := .halted, haltCause := cause }.emit (.halt cause)

/-- TAKING THE EXCEPTION: `raise IllegalAddress(a)` halts with the kind and the address. No register or cell is
written, no device called, no pc written, nothing saved, no handler entered (R243, D6, D7). -/
def State.raiseIllegalAddress (s : State) (kind : AccessKind) (a : Word) : State :=
  s.halt (.addressFault kind a)

/-- The status code of a halt cause: 0 running, 1 explicit, 2 address fault (R241, D7). -/
def HaltCause.code : HaltCause → Nat
  | .none => 0
  | .explicit => 1
  | .addressFault _ _ => 2

/-- The two status outputs of the block (R162). -/
def State.status (s : State) : RunState × HaltCause := (s.run, s.haltCause)

end Sys2Proof.Machine
end

