-- ==== Sys2Proof/Machine/Arith.lean ====
section
/-! DEFINITION. ADD, SUB, AND, XOR, SHL, SHR (spec/42_arith_logic.md R179 to R185). -/

namespace Sys2Proof.Machine

/-- Common to the six: both sources are read, then `x[d]` is written, then the pc advances (R179). -/
def aluOp (f : Word → Word → Word) (d s t : Reg) (st : State) : Host.Outcome State Fault Refusal :=
  .next (st.writeReg d (f (st.readReg s) (st.readReg t))).advance

/-- ADD (R180). -/
def execAdd (d s t : Reg) (st : State) : Host.Outcome State Fault Refusal := aluOp aluAdd d s t st

/-- SUB: the minuend is `x[s]`, the subtrahend `x[t]` (R181). -/
def execSub (d s t : Reg) (st : State) : Host.Outcome State Fault Refusal := aluOp aluSub d s t st

/-- AND (R182). -/
def execAnd (d s t : Reg) (st : State) : Host.Outcome State Fault Refusal := aluOp aluAnd d s t st

/-- XOR (R183). -/
def execXor (d s t : Reg) (st : State) : Host.Outcome State Fault Refusal := aluOp aluXor d s t st

/-- SHL: `x[s]` shifted left by `x[t]` (R184). -/
def execShl (d s t : Reg) (st : State) : Host.Outcome State Fault Refusal := aluOp aluShiftl d s t st

/-- SHR: `x[s]` shifted right by `x[t]`, logically (R185). -/
def execShr (d s t : Reg) (st : State) : Host.Outcome State Fault Refusal := aluOp aluShiftr d s t st

end Sys2Proof.Machine
end

