-- ==== Sys2Proof/Machine/Operands.lean ====
section
/-! DEFINITION. The operand forms: the three addressing modes of spec/43_load_store.md R189 and the targets of
spec/44_control.md R199, with the address each instruction gives the bus (spec/20_memory.md R64). -/

namespace Sys2Proof.Machine

/-- Zero-extend the 8-bit field to a Word (R93). -/
def zext16 (addr : Addr8) : Word := addr.setWidth 16

/-- Immediate mode: the operand is the zero-extended field itself (LOADA, R189). -/
def immediate (addr : Addr8) : Word := zext16 addr

/-- Direct mode: the effective address is the zero-extended field, 0 to 255 (LOAD, STOR, R64, R189). -/
def directAddress (addr : Addr8) : Word := zext16 addr

/-- Register indirect mode: the effective address is the whole register, any Word (LOADI, STORI, R64, R189). -/
def indirectAddress (s : State) (t : Reg) : Word := s.readReg t

/-- A direct target: an absolute address, the zero-extended field (BZERO, BPOSI, JMPL, R199). -/
def directTarget (addr : Addr8) : Word := zext16 addr

/-- A register target: all 16 bits of the register (JMPR, R199, R203). -/
def registerTarget (s : State) (t : Reg) : Word := s.readReg t

/-- The address of an instruction's data read, for the two instructions that make one (R60, R64). -/
def dataReadAddress (i : Instr) (s : State) : Option Word :=
  match i with
  | .load _ addr => some (directAddress addr)
  | .loadi _ t => some (indirectAddress s t)
  | .halt => none
  | .add _ _ _ => none
  | .sub _ _ _ => none
  | .and _ _ _ => none
  | .xor _ _ _ => none
  | .shl _ _ _ => none
  | .shr _ _ _ => none
  | .loada _ _ => none
  | .stor _ _ => none
  | .stori _ _ => none
  | .bzero _ _ => none
  | .bposi _ _ => none
  | .jmpr _ => none
  | .jmpl _ _ => none

/-- The address of an instruction's data write, for the two instructions that make one (R60, R64). -/
def dataWriteAddress (i : Instr) (s : State) : Option Word :=
  match i with
  | .stor _ addr => some (directAddress addr)
  | .stori _ t => some (indirectAddress s t)
  | .halt => none
  | .add _ _ _ => none
  | .sub _ _ _ => none
  | .and _ _ _ => none
  | .xor _ _ _ => none
  | .shl _ _ _ => none
  | .shr _ _ _ => none
  | .loada _ _ => none
  | .load _ _ => none
  | .loadi _ _ => none
  | .bzero _ _ => none
  | .bposi _ _ => none
  | .jmpr _ => none
  | .jmpl _ _ => none

/-- The instruction's data read would call the input device and no value has been supplied, so the step that
executes it is not enabled (R69, D8, log 3). -/
def awaitsInput (i : Instr) (s : State) : Bool :=
  match dataReadAddress i s with
  | none => false
  | some a => decide (addrClass a = .port) && s.pending.isEmpty

end Sys2Proof.Machine
end

