-- ==== Sys2Proof/Machine/Control.lean ====
section
/-! DEFINITION. HALT, BZERO, BPOSI, JMPR, JMPL (spec/44_control.md R199 to R204). -/

namespace Sys2Proof.Machine

/-- Common to the conditional branches: the direct target if the test holds, else the next address (R27). -/
def branchIf (taken : Bool) (addr : Addr8) (s : State) : Host.Outcome State Fault Refusal :=
  .next (if taken then s.setPc (directTarget addr) else s.advance)

/-- HALT: the pc keeps the address of this instruction (R200, D6). -/
def execHalt (s : State) : Host.Outcome State Fault Refusal := .next (s.halt .explicit)

/-- BZERO: the test is on all 16 bits of `x[d]` (R201). -/
def execBzero (d : Reg) (addr : Addr8) (s : State) : Host.Outcome State Fault Refusal :=
  branchIf (decide (s.readReg d = 0#16)) addr s

/-- BPOSI: `x[d] > 0` on the unsigned Word, so taken for every nonzero value (R202, C2, D15). -/
def execBposi (d : Reg) (addr : Addr8) (s : State) : Host.Outcome State Fault Refusal :=
  branchIf (decide (0 < (s.readReg d).toNat)) addr s

/-- JMPR: the target is not checked here; the next fetch checks it (R199, R203). -/
def execJmpr (t : Reg) (s : State) : Host.Outcome State Fault Refusal := .next (s.setPc (registerTarget s t))

/-- JMPL: link the address after this instruction, then jump (R204). -/
def execJmpl (d : Reg) (addr : Addr8) (s : State) : Host.Outcome State Fault Refusal :=
  .next ((s.writeReg d s.nextPc).setPc (directTarget addr))

end Sys2Proof.Machine
end

