-- ==== Sys2Proof/Machine/LoadStore.lean ====
section
/-! DEFINITION. LOADA, LOAD, STOR, LOADI, STORI (spec/43_load_store.md R189 to R194). -/

namespace Sys2Proof.Machine

/-- Common to the loads: the bus read, then the register write, then the pc (R159, R189). A read that waits changes
nothing (R69); an illegal address takes the exception before any effect (R243). -/
def loadWord (d : Reg) (a : Word) (s : State) : Host.Outcome State Fault Refusal :=
  match s.dataRead a with
  | .value v s' => .next (s'.writeReg d v).advance
  | .waiting => .next s
  | .illegal => .next (s.raiseIllegalAddress .load a)

/-- Common to the stores: the bus write, then the pc; an illegal address takes the exception (R189, R243). -/
def storeWord (a v : Word) (s : State) : Host.Outcome State Fault Refusal :=
  match s.memWrite a v with
  | .done s' => .next s'.advance
  | .illegal => .next (s.raiseIllegalAddress .store a)

/-- LOADA: no data memory access, so the number 255 is only a number (R190). -/
def execLoada (d : Reg) (addr : Addr8) (s : State) : Host.Outcome State Fault Refusal :=
  .next (s.writeReg d (immediate addr)).advance

/-- LOAD (R191). -/
def execLoad (d : Reg) (addr : Addr8) (s : State) : Host.Outcome State Fault Refusal :=
  loadWord d (directAddress addr) s

/-- STOR: `d` names the register whose value is stored (R192). -/
def execStor (d : Reg) (addr : Addr8) (s : State) : Host.Outcome State Fault Refusal :=
  storeWord (directAddress addr) (s.readReg d) s

/-- LOADI: `x[t]` is the address, `x[d]` the destination (R193, D5). -/
def execLoadi (d t : Reg) (s : State) : Host.Outcome State Fault Refusal :=
  loadWord d (indirectAddress s t) s

/-- STORI: `x[t]` is the address, `x[d]` the value (R194, D5). -/
def execStori (d t : Reg) (s : State) : Host.Outcome State Fault Refusal :=
  storeWord (indirectAddress s t) (s.readReg d) s

end Sys2Proof.Machine
end

