-- ==== Sys2Proof/Machine/Dispatch.lean ====
section
/-! DEFINITION. The dispatch table of spec/41_cpu_cycle_and_interfaces.md R156: one arm per opcode. -/

namespace Sys2Proof.Machine

def exec (i : Instr) (s : State) : Host.Outcome State Fault Refusal :=
  match i with
  | .halt => Sys2Proof.Machine.execHalt s
  | .add d a b => Sys2Proof.Machine.execAdd d a b s
  | .sub d a b => Sys2Proof.Machine.execSub d a b s
  | .and d a b => Sys2Proof.Machine.execAnd d a b s
  | .xor d a b => Sys2Proof.Machine.execXor d a b s
  | .shl d a b => Sys2Proof.Machine.execShl d a b s
  | .shr d a b => Sys2Proof.Machine.execShr d a b s
  | .loada d addr => Sys2Proof.Machine.execLoada d addr s
  | .load d addr => Sys2Proof.Machine.execLoad d addr s
  | .stor d addr => Sys2Proof.Machine.execStor d addr s
  | .loadi d t => Sys2Proof.Machine.execLoadi d t s
  | .stori d t => Sys2Proof.Machine.execStori d t s
  | .bzero d addr => Sys2Proof.Machine.execBzero d addr s
  | .bposi d addr => Sys2Proof.Machine.execBposi d addr s
  | .jmpr t => Sys2Proof.Machine.execJmpr t s
  | .jmpl d addr => Sys2Proof.Machine.execJmpl d addr s

end Sys2Proof.Machine
end

