-- ==== Sys2Proof/Decode.lean ====
section
/-! DEFINITION. The decoder and the encoder of spec/30_encoding.md: fields (R91), the opcode map (R94), decode as a
function of the word alone (R95, R100), the canonical word of an instruction (R98). Every word decodes: no encoding
is illegal and none is reserved (R95), so the decoder has nothing to reject. The field positions are the spec's
decision D1 (log 11). -/

namespace Sys2Proof

/-- The five fields of an instruction word (R91, D1). -/
def fieldsOf (w : Word) : Fields where
  opcode := w.extractLsb' 12 4
  d := w.extractLsb' 8 4
  s := w.extractLsb' 4 4
  t := w.extractLsb' 0 4
  addr := w.extractLsb' 0 8

/-- The opcode that a 4-bit tag names, bit 3 first: all 16 values are assigned (R94, R95). -/
def Opcode.ofNibble (n : Nibble) : Opcode :=
  match n.getLsbD 3, n.getLsbD 2, n.getLsbD 1, n.getLsbD 0 with
  | false, false, false, false => .halt
  | false, false, false, true => .add
  | false, false, true, false => .sub
  | false, false, true, true => .and
  | false, true, false, false => .xor
  | false, true, false, true => .shl
  | false, true, true, false => .shr
  | false, true, true, true => .loada
  | true, false, false, false => .load
  | true, false, false, true => .stor
  | true, false, true, false => .loadi
  | true, false, true, true => .stori
  | true, true, false, false => .bzero
  | true, true, false, true => .bposi
  | true, true, true, false => .jmpr
  | true, true, true, true => .jmpl

/-- The instruction that five extracted fields spell; each opcode uses some of them (R92, R100). -/
def Fields.instr (f : Fields) : Instr :=
  match Opcode.ofNibble f.opcode with
  | .halt => .halt
  | .add => .add f.d f.s f.t
  | .sub => .sub f.d f.s f.t
  | .and => .and f.d f.s f.t
  | .xor => .xor f.d f.s f.t
  | .shl => .shl f.d f.s f.t
  | .shr => .shr f.d f.s f.t
  | .loada => .loada f.d f.addr
  | .load => .load f.d f.addr
  | .stor => .stor f.d f.addr
  | .loadi => .loadi f.d f.t
  | .stori => .stori f.d f.t
  | .bzero => .bzero f.d f.addr
  | .bposi => .bposi f.d f.addr
  | .jmpr => .jmpr f.t
  | .jmpl => .jmpl f.d f.addr

/-- Decode, total on all 65536 words (R95, R100). -/
def decode (w : Word) : Instr := (fieldsOf w).instr

/-- The number of an opcode in the opcode map (R94). -/
def Opcode.number : Opcode → Nibble
  | .halt => 0x0#4
  | .add => 0x1#4
  | .sub => 0x2#4
  | .and => 0x3#4
  | .xor => 0x4#4
  | .shl => 0x5#4
  | .shr => 0x6#4
  | .loada => 0x7#4
  | .load => 0x8#4
  | .stor => 0x9#4
  | .loadi => 0xA#4
  | .stori => 0xB#4
  | .bzero => 0xC#4
  | .bposi => 0xD#4
  | .jmpr => 0xE#4
  | .jmpl => 0xF#4

/-- The bits of an opcode's words that the instruction ignores (R96). -/
def Opcode.ignoredBits : Opcode → Word
  | .halt => 0x0FFF#16
  | .add | .sub | .and | .xor | .shl | .shr => 0x0000#16
  | .loada | .load | .stor => 0x0000#16
  | .loadi | .stori => 0x00F0#16
  | .bzero | .bposi => 0x0000#16
  | .jmpr => 0x0FF0#16
  | .jmpl => 0x0000#16

/-- The `match` column of the opcode map (R94). -/
def Opcode.matchWord (o : Opcode) : Word := o.number ++ 0x000#12

/-- The `mask` column of the opcode map, the same in every row (R94). -/
def opcodeMask : Word := 0xF000#16

/-- A word of format RR: `opcode :: d :: s :: t` (R91, R92). -/
def wordRR (o : Opcode) (d s t : Nibble) : Word := o.number ++ d ++ s ++ t

/-- A word of format A: `opcode :: d :: addr` (R91, R92). -/
def wordA (o : Opcode) (d : Nibble) (addr : Addr8) : Word := o.number ++ d ++ addr

/-- The canonical word of an instruction, with zero in every ignored bit (R94, R98). -/
def encode : Instr → Word
  | .halt => wordRR .halt 0 0 0
  | .add d s t => wordRR .add d s t
  | .sub d s t => wordRR .sub d s t
  | .and d s t => wordRR .and d s t
  | .xor d s t => wordRR .xor d s t
  | .shl d s t => wordRR .shl d s t
  | .shr d s t => wordRR .shr d s t
  | .loada d addr => wordA .loada d addr
  | .load d addr => wordA .load d addr
  | .stor d addr => wordA .stor d addr
  | .loadi d t => wordRR .loadi d 0 t
  | .stori d t => wordRR .stori d 0 t
  | .bzero d addr => wordA .bzero d addr
  | .bposi d addr => wordA .bposi d addr
  | .jmpr t => wordRR .jmpr 0 0 t
  | .jmpl d addr => wordA .jmpl d addr

/-- The instruction the decoder reads from the low `nbits` bits of `w`. An instruction is one 16-bit word and no
longer one exists (R90), so a row of more than 16 bits is refused. -/
def decodeTableWord (nbits w : Nat) : Option Instr :=
  if nbits ≤ 16 then some (decode (BitVec.ofNat 16 (w % 2 ^ nbits))) else none

end Sys2Proof
end

