-- ==== Sys2Proof/Machine/Fetch.lean ====
section
/-! DEFINITION. The fetch-decode-execute cycle of spec/41_cpu_cycle_and_interfaces.md R150 to R160, over any execute
phase, and the placing of one instruction where the next fetch finds it. -/

namespace Sys2Proof.Machine

/-- What the fetch and decode phases answer. -/
inductive Fetched where
  /-- The instruction, and the state after the fetch. -/
  | instr (i : Instr) (s : State)
  /-- The fetch reads the I/O port and the input device has supplied no value (R69, R154). -/
  | waiting
  /-- The pc is no bus address (R153). -/
  | illegal
  deriving DecidableEq, Repr

/-- Fetch through the bus at `pc` like any read (R74, R152, R154), decode (R155), and emit the fetch event, which
comes after the input call of a fetch from the port (R161, log 7). -/
def fetchDecode (s : State) : Fetched :=
  match s.memRead s.pc with
  | .value w s' => .instr (decode w) (s'.emit (.fetch s.pc w (fieldsOf w)))
  | .waiting => .waiting
  | .illegal => .illegal

/-- The step at this state is not enabled: the machine is running, and its fetch or its data read calls the input
device, which has supplied too few values (R69, D8, R257 "stuck"). -/
def stepWaits (s : State) : Bool :=
  match s.run, fetchDecode s with
  | .halted, _ => false
  | .running, .instr i s' => awaitsInput i s'
  | .running, .waiting => true
  | .running, .illegal => false

/-- One step of the CPU state machine (R151, R160). `Halted` is terminal: nothing changes (R158, log 9). A step whose
fetch or data read would wait for input is not enabled: nothing at all changes, and the machine stays Running at the
same instruction (R69, D8, logs 3 and 4). -/
def cycle (execute : Instr → State → Host.Outcome State Fault Refusal) (s : State) :
    Host.Outcome State Fault Refusal :=
  match s.run with
  | .halted => .next s
  | .running =>
    match fetchDecode s with
    | .illegal => .next (s.raiseIllegalAddress .fetch s.pc)
    | .waiting => .next s
    | .instr i s' => if awaitsInput i s' then .next s else execute i s'

/-- Store a word where the next fetch reads it: in the cell at `pc`; at `pc = 255` as the input device's next value;
and with a pc that no fetch can read from, at the load address, the pc set there. The machine is made Running, which
the fetch needs (logs 9, 10). -/
def placeInstruction (s : State) (w : Word) : State :=
  let r := { s with run := .running, haltCause := .none }
  match addrClass s.pc with
  | .ram => r.setCell s.pc.toNat w
  | .port => { r with pending := dec16 w :: s.pending }
  | .illegal => (r.setPc Config.resetPc).setCell Config.resetPc.toNat w

/-- The instruction's only word, from the table's numbering of its bits (R90). -/
def fetchWord (nbits w : Nat) : Word := BitVec.ofNat 16 (w % 2 ^ nbits)

end Sys2Proof.Machine
end

