-- ==== Sys2Proof/Machine/Step.lean ====
section
/-! DEFINITION. The step function of the machine (spec/41_cpu_cycle_and_interfaces.md R160). -/

namespace Sys2Proof.Machine

/-- One step: fetch, decode, execute, transition (R151). -/
def step (s : State) : Host.Outcome State Fault Refusal := cycle exec s

/-- The state whose very next step fetches and runs the instruction with the bits `w` (log 10). -/
def State.withFetchWord (s : State) (nbits w : Nat) : State := placeInstruction s (fetchWord nbits w)

end Sys2Proof.Machine
end

