-- ==== Sys2Proof/WellFormed.lean ====
section
/-! DEFINITION. What is well formed: an operand that its field can encode (spec/30_encoding.md R98), a program image
that fits the load area (spec/70_reset_and_hazards.md R271, U6), an image file of whole words (R272, U7). -/

namespace Sys2Proof

/-- `d`, `s` and `t` range over 0 to 15; a value outside cannot be encoded (R98). -/
def regInRange (n : Nat) : Bool := decide (n < Config.nreg)

/-- `imm` and `addr` range over 0 to 255; a value outside cannot be encoded (R98). -/
def addrInRange (n : Nat) : Bool := decide (n < 256)

/-- Every operand fits its field. The operand types are 4 and 8 bits wide, so every term of `Instr` is well formed
(D17); the checks themselves refuse the numbers beyond the fields. -/
def Instr.wellFormed (i : Instr) : Bool :=
  i.regOperands.all (fun r => regInRange r.toNat) && i.addrOperands.all (fun a => addrInRange a.toNat)

/-- A program image fits between the load address and the last RAM cell (R271, D10, U6). -/
def imageFits (img : List Word) : Bool := decide (img.length ≤ Config.maxImage)

/-- An image file holds whole big-endian words: its length is even (R272, U7). -/
def fileWhole (bytes : List Byte) : Bool := bytes.length % 2 == 0

end Sys2Proof
end

