-- ==== Sys2Proof/Machine/Load.lean ====
section
/-! DEFINITION. What the core may assume of the loader (spec/70_reset_and_hazards.md R271 to R273): the image format
and the launch state. The loader itself is outside the core (spec/00_scope.md R3). -/

namespace Sys2Proof.Machine

/-- The words of an image file: big-endian, the byte at offset `2i` is bits 15 to 8 of word `i`; a file of odd length
is refused (R272, U7). -/
def fileWords : List Byte → Option (List Word)
  | [] => some []
  | [_] => none
  | hi :: lo :: rest => (fileWords rest).map ((hi ++ lo) :: ·)

/-- Write words to consecutive cells from cell `a` on (R271). -/
def storeImage (m : Memory) (a : Nat) : List Word → Memory
  | [] => m
  | w :: ws => storeImage (m.writeCell a w) (a + 1) ws

/-- The launch state for an image: reset, then the image from cell 16 on; an image of more than 239 words is refused
(R271, D10, U6, log 10). -/
def State.launch (img : List Word) : Option State :=
  if imageFits img then
    some { State.reset with mem := storeImage State.reset.mem Config.loadAddr img }
  else none

end Sys2Proof.Machine
end

