-- ==== Sys2Proof/Safety.lean ====
section
/-! DEFINITION. The terms claims use: the kinds of stop of spec/60_exceptions.md R257, what one state leaves unchanged
of another, and the invariants every step keeps (spec/10_state.md R35, spec/20_memory.md R71). -/

namespace Sys2Proof.Machine

/-! ### How a run stops -/

/-- The stops of this hardware that a state shows; a hang is no property of one state (R257). -/
inductive StopKind where
  /-- Halted by a HALT instruction: what a claim normally takes as success. -/
  | final
  /-- Halted by an IllegalAddress: never cleared, the run is over. -/
  | fault
  /-- Running, and waiting for an input value that is not supplied. -/
  | stuck
  deriving DecidableEq, Repr

/-- The kind of stop a state is in, if any (R257). A halted state with no cause is none: no run reaches one (R35). -/
def stopKind (s : State) : Option StopKind :=
  match s.run, s.haltCause with
  | .halted, .explicit => some .final
  | .halted, .addressFault _ _ => some .fault
  | .halted, .none => none
  | .running, _ => if stepWaits s then some .stuck else none

/-- A run is safe so far: it is not stopped by an illegal address. -/
def Safe (s : State) : Prop := stopKind s ≠ some .fault

/-! ### Frames -/

/-- Every register reads as before. -/
def SameRegs (s t : State) : Prop := ∀ r, t.readReg r = s.readReg r

/-- Every register but `d` reads as before. -/
def OnlyReg (d : Reg) (s t : State) : Prop := ∀ r, r ≠ d → t.readReg r = s.readReg r

/-- Register `d` reads `v`, or zero if it is register 0, and every other register reads as before. -/
def RegGets (d : Reg) (v : Word) (s t : State) : Prop :=
  t.readReg d = (if d = 0#4 then 0#16 else v) ∧ OnlyReg d s t

/-- Every byte of memory reads as before. -/
def SameMemory (s t : State) : Prop := ∀ k, t.mem.readByte k = s.mem.readByte k

/-- Every byte of memory but the two of cell `M[a]` reads as before. -/
def OnlyCell (a : Nat) (s t : State) : Prop :=
  ∀ k, k ≠ 2 * a → k ≠ 2 * a + 1 → t.mem.readByte k = s.mem.readByte k

/-- `run` and `halt_cause` are unchanged. -/
def SameStatus (s t : State) : Prop := t.run = s.run ∧ t.haltCause = s.haltCause

/-- No device is touched: no input taken, none supplied, no output sent. -/
def SameDevices (s t : State) : Prop :=
  t.pending = s.pending ∧ t.consumed = s.consumed ∧ t.output = s.output

/-- The next input value `v` is taken, and nothing is sent. -/
def TookInput (v : Int) (rest : List Int) (s t : State) : Prop :=
  t.pending = rest ∧ t.consumed = s.consumed ++ [v] ∧ t.output = s.output

/-- The value `v` is sent to the output device, and no input is taken. -/
def SentOutput (v : Int) (s t : State) : Prop :=
  t.pending = s.pending ∧ t.consumed = s.consumed ∧ t.output = s.output ++ [v]

/-- The events `es` are emitted, in order, and no other (R161; the format is D11's, log 6). -/
def Emitted (es : List Event) (s t : State) : Prop := t.trace = s.trace ++ es

/-- The instruction writes register `d` with `v` and goes on to the next address: memory, status, devices and trace
are as before (R179). -/
def WritesOnlyReg (d : Reg) (v : Word) (s t : State) : Prop :=
  RegGets d v s t ∧ t.pc = s.pc + 1#16 ∧ SameMemory s t ∧ SameStatus s t ∧ SameDevices s t ∧ Emitted [] s t

/-- The instruction goes to `target` and changes nothing else (R199). -/
def OnlyJumps (target : Word) (s t : State) : Prop :=
  t.pc = target ∧ SameRegs s t ∧ SameMemory s t ∧ SameStatus s t ∧ SameDevices s t ∧ Emitted [] s t

/-- The instruction reads the RAM cell at `a` into register `d` and goes on to the next address (R191, R193). -/
def LoadsCell (d : Reg) (a : Word) (s t : State) : Prop :=
  RegGets d (s.cell a.toNat) s t ∧ t.pc = s.pc + 1#16 ∧ SameMemory s t ∧ SameStatus s t ∧ SameDevices s t ∧
    Emitted [.memRead a (s.cell a.toNat)] s t

/-- The instruction takes the input value `v` into register `d` as the Word `w` and goes on to the next address
(R191, R193). -/
def LoadsInput (d : Reg) (v : Int) (w : Word) (rest : List Int) (s t : State) : Prop :=
  RegGets d w s t ∧ t.pc = s.pc + 1#16 ∧ SameMemory s t ∧ SameStatus s t ∧ TookInput v rest s t ∧
    Emitted [.input v w] s t

/-- The instruction stores `v` in the RAM cell at `a`, all 16 bits and no other byte, and goes on to the next address
(R192, R194). -/
def StoresCell (a v : Word) (s t : State) : Prop :=
  t.cell a.toNat = v ∧ OnlyCell a.toNat s t ∧ SameRegs s t ∧ t.pc = s.pc + 1#16 ∧ SameStatus s t ∧
    SameDevices s t ∧ Emitted [.memWrite a v] s t

/-- The instruction sends the Word `w` to the output device as the value `v`, stores nothing, and goes on to the next
address (R192, R194). -/
def SendsWord (w : Word) (v : Int) (s t : State) : Prop :=
  SentOutput v s t ∧ SameRegs s t ∧ SameMemory s t ∧ t.pc = s.pc + 1#16 ∧ SameStatus s t ∧
    Emitted [.output w v] s t

/-- The machine has taken IllegalAddress at `a`: halted with the kind and the address, and nothing else changed but
the halt event in the trace (R243; D6 and D7, logs 15 and 12; the event is D11's, log 6). -/
def Faulted (kind : AccessKind) (a : Word) (s t : State) : Prop :=
  t.run = .halted ∧ t.haltCause = .addressFault kind a ∧ t.pc = s.pc ∧ SameRegs s t ∧ SameMemory s t ∧
    SameDevices s t ∧ Emitted [.halt (.addressFault kind a)] s t

/-! ### Invariants -/

/-- The memory has its canonical form and lists nothing outside the 255 cells (R29). -/
def MemoryInv (s : State) : Prop := s.mem.wf

/-- `halt_cause` is None exactly while the machine runs (R35), and a recorded fault address is an illegal one
(R241). -/
def StatusInv (s : State) : Prop :=
  (s.haltCause = .none ↔ s.run = .running) ∧
    ∀ kind a, s.haltCause = .addressFault kind a → 256 ≤ a.toNat

/-- The raw values of the input events. -/
def tracedInputs (es : List Event) : List Int :=
  es.filterMap fun e =>
    match e with
    | .input raw _ => some raw
    | .fetch _ _ _ => none
    | .memRead _ _ => none
    | .memWrite _ _ => none
    | .output _ _ => none
    | .halt _ => none

/-- The values of the output events. -/
def tracedOutputs (es : List Event) : List Int :=
  es.filterMap fun e =>
    match e with
    | .output _ v => some v
    | .fetch _ _ _ => none
    | .input _ _ => none
    | .memRead _ _ => none
    | .memWrite _ _ => none
    | .halt _ => none

/-- The trace shows one input event per value consumed and one output event per value sent, in order (R161), and
every value sent is a signed 16-bit value (R71). -/
def DeviceInv (s : State) : Prop :=
  tracedInputs s.trace = s.consumed ∧ tracedOutputs s.trace = s.output ∧
    ∀ v ∈ s.output, -32768 ≤ v ∧ v ≤ 32767

end Sys2Proof.Machine
end

