-- ==== Sys2Proof/Certificates/Slice0/Obligations.lean ====
section
/-! DEFINITION. The statements for the provers. Each docstring names the rule of spec/ it formalises; where a rule is
one the spec marks as its own decision, the docstring names the decision and the log entry. Frames are said through
`State.readReg` and `Memory.readByte`; the frame predicates are those of Safety.lean. -/

open Sys2Proof Sys2Proof.Machine

/-! ### Encoding -/

/-- Decoding the canonical word of an instruction gives the instruction back, every operand at every value (R94, R98,
R100; the field positions are the spec's decision D1, log 11). -/
def Obligations.DecodeInvertsEncode : Prop := ∀ i : Instr, decode (encode i) = i

/-- Decode followed by encode returns the word with its ignored bits cleared (R100), and no value of the ignored bits
changes the instruction (R96; D1, log 11). -/
def Obligations.IgnoredBitsAreClearedAndNeverMatter : Prop :=
  ∀ w v : Word,
    encode (decode w) = w &&& ~~~(decode w).opcode.ignoredBits ∧
    decode ((w &&& ~~~(decode w).opcode.ignoredBits) ||| (v &&& (decode w).opcode.ignoredBits)) = decode w

/-- Every word matches the row of exactly one opcode, the opcode it decodes to (R94, R95; D1, log 11). -/
def Obligations.EveryWordMatchesItsOwnOpcodeRow : Prop :=
  ∀ (w : Word) (o : Opcode), (w &&& opcodeMask = o.matchWord ↔ (decode w).opcode = o)

/-- The word formulas of the assembler table (R98; D1 and D9, log 11). -/
def Obligations.CanonicalWordFormulas : Prop :=
  ∀ (d s t : Reg) (addr : Addr8),
    (encode .halt).toNat = 0x0000 ∧
    (encode (.add d s t)).toNat = 0x1000 + 256 * d.toNat + 16 * s.toNat + t.toNat ∧
    (encode (.sub d s t)).toNat = 0x2000 + 256 * d.toNat + 16 * s.toNat + t.toNat ∧
    (encode (.and d s t)).toNat = 0x3000 + 256 * d.toNat + 16 * s.toNat + t.toNat ∧
    (encode (.xor d s t)).toNat = 0x4000 + 256 * d.toNat + 16 * s.toNat + t.toNat ∧
    (encode (.shl d s t)).toNat = 0x5000 + 256 * d.toNat + 16 * s.toNat + t.toNat ∧
    (encode (.shr d s t)).toNat = 0x6000 + 256 * d.toNat + 16 * s.toNat + t.toNat ∧
    (encode (.loada d addr)).toNat = 0x7000 + 256 * d.toNat + addr.toNat ∧
    (encode (.load d addr)).toNat = 0x8000 + 256 * d.toNat + addr.toNat ∧
    (encode (.stor d addr)).toNat = 0x9000 + 256 * d.toNat + addr.toNat ∧
    (encode (.loadi d t)).toNat = 0xA000 + 256 * d.toNat + t.toNat ∧
    (encode (.stori d t)).toNat = 0xB000 + 256 * d.toNat + t.toNat ∧
    (encode (.bzero d addr)).toNat = 0xC000 + 256 * d.toNat + addr.toNat ∧
    (encode (.bposi d addr)).toNat = 0xD000 + 256 * d.toNat + addr.toNat ∧
    (encode (.jmpr t)).toNat = 0xE000 + t.toNat ∧
    (encode (.jmpl d addr)).toNat = 0xF000 + 256 * d.toNat + addr.toNat

/-- The decode vectors of spec/95_test_vectors.md part 4 (D1, log 11). -/
def Obligations.SpecDecodeVectors : Prop :=
  decode 0x0FFF#16 = .halt ∧
  decode 0x1312#16 = .add 3 1 2 ∧
  decode 0x2ABC#16 = .sub 10 11 12 ∧
  decode 0x71FF#16 = .loada 1 0xFF ∧
  decode 0x9320#16 = .stor 3 0x20 ∧
  decode 0xA301#16 = .loadi 3 1 ∧
  decode 0xB2A1#16 = .stori 2 1 ∧
  decode 0xC117#16 = .bzero 1 0x17 ∧
  decode 0xEAB1#16 = .jmpr 1 ∧
  decode 0xF120#16 = .jmpl 1 0x20

/-! ### The ALU -/

/-- The adders return the two bits of the sum of their inputs (R121, R122). -/
def Obligations.AddersAddTheirBits : Prop :=
  (∀ a b : Bool, halfAdder a b = ⟨a ^^ b, a && b⟩) ∧
  ∀ a b c : Bool,
    2 * (fullAdder a b c).carry.toNat + (fullAdder a b c).sum.toNat = a.toNat + b.toNat + c.toNat

/-- `Add` is the ripple-carry chain of full adders with carry in 0, and equals the sum modulo 65536 (R123). -/
def Obligations.AddIsRippleCarryAndModularSum : Prop :=
  ∀ a b : Word,
    (∃ c : Nat → Bool, c 0 = false ∧
      ∀ i < 16, fullAdder (a.getLsbD i) (b.getLsbD i) (c i) = ⟨(aluAdd a b).getLsbD i, c (i + 1)⟩) ∧
    (aluAdd a b).toNat = (a.toNat + b.toNat) % 65536

/-- `Sub` is the same chain with carry in 1 and the second operand inverted, and equals the difference modulo 65536
(R124). -/
def Obligations.SubIsInvertedRippleCarryAndModularDifference : Prop :=
  ∀ a b : Word,
    (∃ c : Nat → Bool, c 0 = true ∧
      ∀ i < 16, fullAdder (a.getLsbD i) (!b.getLsbD i) (c i) = ⟨(aluSub a b).getLsbD i, c (i + 1)⟩) ∧
    ((aluSub a b).toNat : Int) = ((a.toNat : Int) - b.toNat) % 65536

/-- `And` and `Xor` work bit by bit (R125; for Xor R126). -/
def Obligations.LogicIsBitwise : Prop :=
  ∀ (a b : Word) (i : Nat), i < 16 →
    (aluAnd a b).getLsbD i = (a.getLsbD i && b.getLsbD i) ∧
    (aluXor a b).getLsbD i = (a.getLsbD i ^^ b.getLsbD i)

/-- The shifts are logical, by the amount modulo 16: values, bits, and the amounts that reduce to 0 (R127 to R129; the
policy is the spec's decision D3, log 13). -/
def Obligations.ShiftsAreLogicalModuloSixteen : Prop :=
  ∀ a b : Word,
    (aluShiftl a b).toNat = (a.toNat * 2 ^ (b.toNat % 16)) % 65536 ∧
    (aluShiftr a b).toNat = a.toNat / 2 ^ (b.toNat % 16) ∧
    (b.toNat % 16 = 0 → aluShiftl a b = a ∧ aluShiftr a b = a) ∧
    ∀ i < 16,
      (aluShiftl a b).getLsbD i = (if b.toNat % 16 ≤ i then a.getLsbD (i - b.toNat % 16) else false) ∧
      (aluShiftr a b).getLsbD i = (if i + b.toNat % 16 ≤ 15 then a.getLsbD (i + b.toNat % 16) else false)

/-! ### Registers -/

/-- Register 0 reads zero in every state, whatever was written to any register before (R22). -/
def Obligations.RegisterZeroAlwaysReadsZero : Prop :=
  ∀ (s : State) (writes : List (Reg × Word)),
    s.readReg 0 = 0 ∧ (writes.foldl (fun st w => st.writeReg w.1 w.2) s).readReg 0 = 0

/-- A register write stores the value in registers 1 to 15 and does nothing for register 0; it touches nothing else,
and an instruction whose destination is register 0 keeps its other effects: `LOAD x0, 0xFF` still consumes one input
value (R23). -/
def Obligations.RegisterWriteStoresOrIsIgnored : Prop :=
  ∀ (s : State) (d : Reg) (v : Word),
    RegGets d v s (s.writeReg d v) ∧ (d = 0 → s.writeReg d v = s) ∧
    (s.writeReg d v).pc = s.pc ∧ SameMemory s (s.writeReg d v) ∧ SameStatus s (s.writeReg d v) ∧
    SameDevices s (s.writeReg d v) ∧ Emitted [] s (s.writeReg d v) ∧
    ∀ x rest, s.pending = x :: rest →
      ∃ t, exec (.load 0 0xFF) s = .next t ∧ SameRegs s t ∧ t.pc = s.pc + 1#16 ∧ TookInput x rest s t ∧
        SameStatus s t

/-! ### The bus -/

/-- A bus read of RAM returns the cell and changes nothing; a bus read of 255 consumes exactly one input value and
returns it clamped to -32768..32767 and encoded in two's complement, changing nothing of the core (R52, R53). -/
def Obligations.BusReadReturnsCellOrClampedInput : Prop :=
  ∀ (s : State) (a : Word),
    (a.toNat ≤ 254 → s.memRead a = .value (s.cell a.toNat) s) ∧
    ∀ v rest, a.toNat = 255 → s.pending = v :: rest →
      ∃ (w : Word) (t : State), s.memRead a = .value w t ∧
        (w.toNat : Int) = (if max (-32768) (min v 32767) < 0 then max (-32768) (min v 32767) + 65536
          else max (-32768) (min v 32767)) ∧
        TookInput v rest s t ∧ SameRegs s t ∧ SameMemory s t ∧ SameStatus s t ∧ t.pc = s.pc

/-- A bus write to RAM stores all 16 bits of the value in that cell and in no other byte of memory, touches no device,
and is read back; every RAM cell is writable (R55). -/
def Obligations.RamWriteRoundTrips : Prop :=
  ∀ (s : State) (a v : Word), a.toNat ≤ 254 →
    ∃ t, s.memWrite a v = .done t ∧ t.cell a.toNat = v ∧ OnlyCell a.toNat s t ∧
      (∀ b, b ≠ a.toNat → t.cell b = s.cell b) ∧ t.memRead a = .value v t ∧ SameDevices s t ∧ SameRegs s t ∧
      SameStatus s t ∧ t.pc = s.pc

/-- A bus write to 255 sends the value as a signed integer, exactly once, and stores nothing: a later read of 255 reads
the input device (R56). -/
def Obligations.PortWriteSendsSignedValue : Prop :=
  ∀ (s : State) (v : Word),
    ∃ t, s.memWrite 255 v = .done t ∧
      SentOutput (if v.toNat ≥ 32768 then (v.toNat : Int) - 65536 else (v.toNat : Int)) s t ∧
      SameRegs s t ∧ SameMemory s t ∧ SameStatus s t ∧ t.pc = s.pc ∧
      t.memRead 255 =
        match s.pending with
        | [] => .waiting
        | x :: rest => .value (enc16 (clamp16 x)) (t.takeInput x rest)

/-- The conversions at the I/O boundary: the formulas, and that they invert each other (R58, whose inverse laws the
spec derives). -/
def Obligations.IoConversionsAreTwosComplement : Prop :=
  (∀ v : Int, clamp16 v = max (-32768) (min v 32767)) ∧
  (∀ c : Int, -32768 ≤ c → c ≤ 32767 →
    ((enc16 c).toNat : Int) = (if c < 0 then c + 65536 else c) ∧ dec16 (enc16 c) = c) ∧
  ∀ w : Word, dec16 w = w.toInt ∧ enc16 (dec16 w) = w

/-- The I/O port is the sole side-effecting address: a RAM read answers the same state, two reads of 255 take two
values, two writes to 255 send two, and no other access touches a device (from R59; that a store to another cell leaves
a read as it was is `RamWriteRoundTrips`). -/
def Obligations.PortIsTheOnlySideEffect : Prop :=
  ∀ (s : State) (a v : Word),
    (a.toNat ≤ 254 → ∃ w, s.memRead a = .value w s) ∧
    (a.toNat ≤ 254 → ∃ t, s.memWrite a v = .done t ∧ SameDevices s t) ∧
    (256 ≤ a.toNat → s.memRead a = .illegal ∧ s.memWrite a v = .illegal) ∧
    (∀ x y rest, s.pending = x :: y :: rest →
      ∃ t u, s.memRead 255 = .value (enc16 (clamp16 x)) t ∧ t.memRead 255 = .value (enc16 (clamp16 y)) u ∧
        u.pending = rest ∧ u.consumed = s.consumed ++ [x, y]) ∧
    ∃ t u, s.memWrite 255 v = .done t ∧ t.memWrite 255 v = .done u ∧
      u.output = s.output ++ [dec16 v, dec16 v]

/-! ### Arithmetic, logic and shift instructions -/

/-- Common to ADD, SUB, AND, XOR, SHL and SHR: the sources are read before the destination is written, register 0 reads
zero and discards its result, the pc advances by one, and nothing else changes (R179). -/
def Obligations.AluInstructionsWriteOnlyTheirDestination : Prop :=
  ∀ (d a b : Reg) (s : State),
    ∀ p ∈ [(Instr.add d a b, aluAdd), (.sub d a b, aluSub), (.and d a b, aluAnd), (.xor d a b, aluXor),
        (.shl d a b, aluShiftl), (.shr d a b, aluShiftr)],
      ∃ t, exec p.1 s = .next t ∧ WritesOnlyReg d (p.2 (s.readReg a) (s.readReg b)) s t ∧
        (d = 0 → SameRegs s t) ∧ (a = 0 → s.readReg a = 0) ∧ (b = 0 → s.readReg b = 0)

/-- ADD writes the sum of the sources modulo 65536 to `x[d]` and nothing else (R180). -/
def Obligations.AddWritesModularSum : Prop :=
  ∀ (d a b : Reg) (s : State), ∃ (t : State) (v : Word),
    exec (.add d a b) s = .next t ∧ v.toNat = ((s.readReg a).toNat + (s.readReg b).toNat) % 65536 ∧
      WritesOnlyReg d v s t

/-- SUB writes `x[s] - x[t]` modulo 65536 to `x[d]` and nothing else (R181). -/
def Obligations.SubWritesModularDifference : Prop :=
  ∀ (d a b : Reg) (s : State), ∃ (t : State) (v : Word),
    exec (.sub d a b) s = .next t ∧
      (v.toNat : Int) = (((s.readReg a).toNat : Int) - (s.readReg b).toNat) % 65536 ∧ WritesOnlyReg d v s t

/-- AND and XOR write the bitwise results to `x[d]` and nothing else (R182, R183). -/
def Obligations.AndXorWriteBitwiseResults : Prop :=
  ∀ (d a b : Reg) (s : State), ∃ (t u : State) (v w : Word),
    exec (.and d a b) s = .next t ∧ exec (.xor d a b) s = .next u ∧
      (∀ i < 16, v.getLsbD i = ((s.readReg a).getLsbD i && (s.readReg b).getLsbD i)) ∧
      (∀ i < 16, w.getLsbD i = ((s.readReg a).getLsbD i ^^ (s.readReg b).getLsbD i)) ∧
      WritesOnlyReg d v s t ∧ WritesOnlyReg d w s u

/-- SHL and SHR write `x[s]` shifted logically by `x[t] mod 16` to `x[d]` and nothing else (R184, R185; D3, log 13). -/
def Obligations.ShlShrWriteShiftedValues : Prop :=
  ∀ (d a b : Reg) (s : State), ∃ (t u : State) (v w : Word),
    exec (.shl d a b) s = .next t ∧ exec (.shr d a b) s = .next u ∧
      v.toNat = ((s.readReg a).toNat * 2 ^ ((s.readReg b).toNat % 16)) % 65536 ∧
      w.toNat = (s.readReg a).toNat / 2 ^ ((s.readReg b).toNat % 16) ∧
      WritesOnlyReg d v s t ∧ WritesOnlyReg d w s u

/-! ### Loads and stores -/

/-- LOADA writes the zero-extended immediate to `x[d]` and nothing else; no value of it touches the port (R190). -/
def Obligations.LoadaWritesZeroExtendedImmediate : Prop :=
  ∀ (d : Reg) (addr : Addr8) (s : State), ∃ (t : State) (v : Word),
    exec (.loada d addr) s = .next t ∧ v.toNat = addr.toNat ∧ WritesOnlyReg d v s t

/-- LOAD and LOADI from a RAM address read that cell into `x[d]` and nothing else; LOADI's address is the whole of
`x[t]` (R191, R193; D5, log 14; the event is D11's, log 6). -/
def Obligations.LoadsFromRamReadTheCell : Prop :=
  ∀ (d r : Reg) (addr : Addr8) (s : State),
    ((directAddress addr).toNat ≤ 254 →
      ∃ t, exec (.load d addr) s = .next t ∧ LoadsCell d (directAddress addr) s t) ∧
    ((indirectAddress s r).toNat ≤ 254 →
      ∃ t, exec (.loadi d r) s = .next t ∧ LoadsCell d (indirectAddress s r) s t)

/-- LOAD and LOADI from address 255 take one input value, clamped and encoded, into `x[d]` and nothing else (R191, R193,
R53; D5 and D11, logs 14 and 6). -/
def Obligations.LoadsFromPortTakeOneInput : Prop :=
  ∀ (d r : Reg) (addr : Addr8) (s : State) (v : Int) (rest : List Int), s.pending = v :: rest →
    ∃ w : Word,
      (w.toNat : Int) = (if max (-32768) (min v 32767) < 0 then max (-32768) (min v 32767) + 65536
        else max (-32768) (min v 32767)) ∧
      ((directAddress addr).toNat = 255 →
        ∃ t, exec (.load d addr) s = .next t ∧ LoadsInput d v w rest s t) ∧
      ((indirectAddress s r).toNat = 255 →
        ∃ t, exec (.loadi d r) s = .next t ∧ LoadsInput d v w rest s t)

/-- LOAD and LOADI from address 255 with no input supplied wait: the state does not change at all (R69; the spec's
decision D8; the form of the wait is the model's choice, log 3). -/
def Obligations.LoadsFromPortWaitForInput : Prop :=
  ∀ (d r : Reg) (addr : Addr8) (s : State), s.pending = [] →
    ((directAddress addr).toNat = 255 → exec (.load d addr) s = .next s) ∧
    ((indirectAddress s r).toNat = 255 → exec (.loadi d r) s = .next s)

/-- STOR and STORI to a RAM address store `x[d]` in that cell and change no other byte and no register; STORI's address
is the whole of `x[t]` (R192, R194; D5, log 14; the event is D11's, log 6). -/
def Obligations.StoresToRamWriteTheCell : Prop :=
  ∀ (d r : Reg) (addr : Addr8) (s : State) (a : Word), a.toNat ≤ 254 →
    (directAddress addr = a → ∃ t, exec (.stor d addr) s = .next t ∧ StoresCell a (s.readReg d) s t) ∧
    (indirectAddress s r = a → ∃ t, exec (.stori d r) s = .next t ∧ StoresCell a (s.readReg d) s t)

/-- STOR and STORI to address 255 send `x[d]` as a signed value, once, and store nothing (R192, R194, R56; D5 and D11,
logs 14 and 6). -/
def Obligations.StoresToPortSendTheValue : Prop :=
  ∀ (d r : Reg) (addr : Addr8) (s : State), ∃ v : Int,
    v = (if (s.readReg d).toNat ≥ 32768 then ((s.readReg d).toNat : Int) - 65536 else ((s.readReg d).toNat : Int)) ∧
    ((directAddress addr).toNat = 255 →
      ∃ t, exec (.stor d addr) s = .next t ∧ SendsWord (s.readReg d) v s t) ∧
    ((indirectAddress s r).toNat = 255 →
      ∃ t, exec (.stori d r) s = .next t ∧ SendsWord (s.readReg d) v s t)

/-- LOADI and STORI with an address of 256 or more take IllegalAddress: halted with the kind and the address, nothing
else changed in the core; LOAD and STOR never present such an address (R54, R57, R64, R242, R243; D6 and D7, logs 15 and 12;
that one halt event is emitted is D11's, log 6). -/
def Obligations.IndirectAccessBeyondThePortTraps : Prop :=
  ∀ (d r : Reg) (addr : Addr8) (s : State),
    (directAddress addr).toNat < 256 ∧
    (256 ≤ (indirectAddress s r).toNat →
      (∃ t, exec (.loadi d r) s = .next t ∧ Faulted .load (s.readReg r) s t) ∧
      ∃ t, exec (.stori d r) s = .next t ∧ Faulted .store (s.readReg r) s t)

/-! ### Control instructions -/

/-- HALT halts with cause Explicit and changes nothing else in the core, the pc included (R200; the pc is the spec's
decision D6, log 15; that one halt event is emitted is D11's, log 6). -/
def Obligations.HaltStopsExplicitly : Prop :=
  ∀ s : State, ∃ t, exec .halt s = .next t ∧ t.run = .halted ∧ t.haltCause = .explicit ∧ t.pc = s.pc ∧
    SameRegs s t ∧ SameMemory s t ∧ SameDevices s t ∧ Emitted [.halt .explicit] s t

/-- BZERO goes to the zero-extended target exactly when all 16 bits of `x[d]` are zero, and writes nothing; with
register 0 it is always taken (R201). -/
def Obligations.BzeroBranchesOnZero : Prop :=
  ∀ (d : Reg) (addr : Addr8) (s : State), ∃ (t : State) (target : Word),
    exec (.bzero d addr) s = .next t ∧ target.toNat = addr.toNat ∧
      OnlyJumps (if (s.readReg d).toNat = 0 then target else s.pc + 1#16) s t ∧ (d = 0 → t.pc = target)

/-- BPOSI goes to the zero-extended target exactly when `x[d]`, read as unsigned, is above zero, so also for 0x8000 to
0xFFFF, and writes nothing; with register 0 it is never taken (R202; the spec's decision D15, log 16). -/
def Obligations.BposiBranchesOnNonzero : Prop :=
  ∀ (d : Reg) (addr : Addr8) (s : State), ∃ (t : State) (target : Word),
    exec (.bposi d addr) s = .next t ∧ target.toNat = addr.toNat ∧
      OnlyJumps (if 0 < (s.readReg d).toNat then target else s.pc + 1#16) s t ∧
      (32768 ≤ (s.readReg d).toNat → t.pc = target) ∧ (d = 0 → t.pc = s.pc + 1#16)

/-- JMPR goes to all 16 bits of `x[t]`, legal address or not, and writes nothing (R203; the field is the spec's decision
D4, log 14). -/
def Obligations.JmprJumpsToTheWholeRegister : Prop :=
  ∀ (r : Reg) (s : State), ∃ t, exec (.jmpr r) s = .next t ∧ OnlyJumps (s.readReg r) s t

/-- JMPL writes the address after its own to `x[d]`, goes to the zero-extended target, and changes nothing else
(R204). -/
def Obligations.JmplLinksAndJumps : Prop :=
  ∀ (d : Reg) (addr : Addr8) (s : State), ∃ t,
    exec (.jmpl d addr) s = .next t ∧ t.pc.toNat = addr.toNat ∧ RegGets d (s.pc + 1#16) s t ∧ SameMemory s t ∧
      SameStatus s t ∧ SameDevices s t ∧ Emitted [] s t

/-- After `JMPL xd, f` with `d` not 0, `JMPR xd` returns to the instruction after the JMPL (R203, R204). -/
def Obligations.JmprReturnsFromJmpl : Prop :=
  ∀ (d : Reg) (addr : Addr8) (s : State), d ≠ 0 →
    ∃ t u, exec (.jmpl d addr) s = .next t ∧ exec (.jmpr d) t = .next u ∧ u.pc = s.pc + 1#16 ∧ SameRegs t u

/-! ### The step -/

/-- When the cell at `pc` decodes to an instruction, a running machine's step is that instruction's `exec` on the state
after the fetch, which differs by the fetch event alone; the exception is the step that waits for input, which leaves
the state as it was (R152, R155 to R157; the wait is log 3, the event log 6). -/
def Obligations.StepRunsTheDecodedInstruction : Prop :=
  ∀ (s : State) (i : Instr), s.run = .running → s.pc.toNat ≤ 254 → decode (s.cell s.pc.toNat) = i →
    step s =
      if awaitsInput i s then .next s
      else exec i (s.emit (.fetch s.pc (s.cell s.pc.toNat) (fieldsOf (s.cell s.pc.toNat))))

/-- The fetch reads the cell at `pc` with no side effect when it is RAM; out of the addressable range the machine
halts (R152). -/
def Obligations.FetchReadsTheCellAtThePc : Prop :=
  ∀ s : State, s.run = .running →
    (s.pc.toNat ≤ 254 →
      s.memRead s.pc = .value (s.cell s.pc.toNat) s ∧
      ∃ t, fetchDecode s = .instr (decode (s.cell s.pc.toNat)) t ∧ SameRegs s t ∧ SameMemory s t ∧
        SameStatus s t ∧ SameDevices s t ∧ t.pc = s.pc) ∧
    (256 ≤ s.pc.toNat → ∃ t, step s = .next t ∧ t.run = .halted)

/-- A fetch at `pc = 255` takes one input value and executes the Word it encodes to, unless that instruction needs a
second input that is not supplied: then the step waits and nothing at all changes, the first value not consumed either
(R154; the fetch is the spec's decision D2, log 18; the wait is the model's, logs 3 and 4; the events are D11's, log 6,
and their order the model's, log 7). -/
def Obligations.FetchFromPortExecutesTheInput : Prop :=
  ∀ (s : State) (v : Int) (rest : List Int), s.run = .running → s.pc.toNat = 255 → s.pending = v :: rest →
    ∃ (w : Word) (t : State),
      (w.toNat : Int) = (if max (-32768) (min v 32767) < 0 then max (-32768) (min v 32767) + 65536
        else max (-32768) (min v 32767)) ∧
      TookInput v rest s t ∧ SameRegs s t ∧ SameMemory s t ∧ SameStatus s t ∧ t.pc = s.pc ∧
      Emitted [.input v w, .fetch s.pc w (fieldsOf w)] s t ∧
      step s = if awaitsInput (decode w) t then .next s else exec (decode w) t

/-- A fetch at an address of 256 or more takes IllegalAddress: halted with kind Fetch and the pc, the pc unchanged, and
nothing else in the core (R153, R243; D6 and D7, logs 15 and 12; that one halt event is emitted is D11's, log 6). -/
def Obligations.FetchBeyondThePortTraps : Prop :=
  ∀ s : State, s.run = .running → 256 ≤ s.pc.toNat → ∃ t, step s = .next t ∧ Faulted .fetch s.pc s t

/-- A running machine's step leaves the model's whole state, the trace included, as it was exactly when it waits for
input that is not supplied (R69, R257; D8, log 3; at `pc = 255` with one of two values supplied, log 4). That every other
step changes the state is the model's, and can hold through the trace alone (D11, log 6): a branch to itself leaves the
core's own state as it was. -/
def Obligations.OnlyAWaitingStepChangesNothing : Prop :=
  ∀ s : State, s.run = .running → (step s = .next s ↔ stepWaits s = true)

/-- `Halted` is terminal: no number of steps changes anything; and a running machine that becomes halted either executed
HALT or took an IllegalAddress (R158). -/
def Obligations.HaltedIsTerminal : Prop :=
  (∀ (n : Nat) (s : State), s.run = .halted → Host.Core.run Sys2Proof.core n s = .next s) ∧
  ∀ s t : State, s.run = .running → step s = .next t → t.run = .halted →
    (t.haltCause = .explicit ∧ ∃ s', fetchDecode s = .instr .halt s') ∨
    ∃ kind a, t.haltCause = .addressFault kind a ∧ 256 ≤ a.toNat

/-- `run` starts as Running, never leaves Halted by a step, and becomes Halted in exactly two ways: HALT, or
IllegalAddress at the fetch, in LOADI or in STORI; and no instruction reads `run` (R30). -/
def Obligations.RunHaltsInExactlyTwoWays : Prop :=
  State.reset.run = .running ∧
  (∀ s t : State, s.run = .halted → step s = .next t → t.run = .halted) ∧
  (∀ s t : State, s.run = .running → step s = .next t →
    (t.run = .halted ↔
      (∃ s', fetchDecode s = .instr .halt s') ∨
      256 ≤ s.pc.toNat ∨
      (∃ d r s', fetchDecode s = .instr (.loadi d r) s' ∧ 256 ≤ (s'.readReg r).toNat) ∨
      ∃ d r s', fetchDecode s = .instr (.stori d r) s' ∧ 256 ≤ (s'.readReg r).toNat)) ∧
  ∀ (i : Instr) (s : State) (r : RunState),
    ∃ t u, exec i s = .next t ∧ exec i { s with run := r } = .next u ∧
      { u with run := t.run } = t

/-- A step that ends in an address fault is precise: no register, no cell, no output, and the pc of the faulting
instruction kept; unless the fetch itself read the port, no device was touched (R243, R244; D6, log 15). -/
def Obligations.AddressFaultsArePrecise : Prop :=
  ∀ (s t : State) (kind : AccessKind) (a : Word), s.run = .running → step s = .next t → t.run = .halted →
    t.haltCause = .addressFault kind a →
      256 ≤ a.toNat ∧ t.pc = s.pc ∧ SameRegs s t ∧ SameMemory s t ∧ t.output = s.output ∧
        (s.pc.toNat ≠ 255 → SameDevices s t)

/-- Nothing is refused and nothing faults: every step, and every instruction in every state, answers a next state
(R95, R257; that a trap and a wait are next states is the model's choice, logs 3 and 9). -/
def Obligations.EveryStepAnswersANextState : Prop :=
  (∀ s : State, ∃ t, step s = .next t) ∧ ∀ (i : Instr) (s : State), ∃ t, exec i s = .next t

/-! ### Invariants -/

/-- Every step keeps the memory in its canonical form, inside the 255 cells (R29, R55; the form is the model's, log 1). -/
def Obligations.StepKeepsMemoryCanonical : Prop :=
  ∀ s t : State, MemoryInv s → step s = .next t → MemoryInv t

/-- Every step keeps `halt_cause` None exactly while the machine runs, and a recorded fault address illegal (R35, which
the spec derives, R241; D7, log 12). -/
def Obligations.StepKeepsStatusConsistent : Prop :=
  ∀ s t : State, StatusInv s → step s = .next t → StatusInv t

/-- Every step keeps the trace in agreement with the devices, one event per call in order, and every value sent in the
signed 16-bit range (R71, R161; D11, log 6). -/
def Obligations.StepKeepsTraceAndDevicesInAgreement : Prop :=
  ∀ s t : State, DeviceInv s → step s = .next t → DeviceInv t

/-- The reset state meets the three invariants. The values of the core's own fields are R34's; the canonical form of the
memory is the model's (log 1), the cause is the spec's decision D7 (log 12), and that nothing is consumed, sent or
traced yet is the model's choice of reset values for its own fields (logs 5 and 6). -/
def Obligations.ResetMeetsTheInvariants : Prop :=
  MemoryInv State.reset ∧ StatusInv State.reset ∧ DeviceInv State.reset

/-! ### Rules of the whole machine -/

/-- A step changes a byte of memory only by executing STOR or STORI, and only in the cell that instruction addresses
(R20, R55, R60). -/
def Obligations.OnlyStoresChangeMemory : Prop :=
  ∀ (s t : State) (k : Nat), step s = .next t → t.mem.readByte k ≠ s.mem.readByte k →
    ∃ i s' a, s.run = .running ∧ fetchDecode s = .instr i s' ∧ dataWriteAddress i s' = some a ∧ a.toNat ≤ 254 ∧
      (k = 2 * a.toNat ∨ k = 2 * a.toNat + 1)

/-- A step touches a device only through address 255: by a fetch there, or by an instruction whose data address is 255
(R59, R66); and it takes inputs only from the front, in order. -/
def Obligations.DevicesAreTouchedOnlyThroughThePort : Prop :=
  ∀ s t : State, step s = .next t →
    (¬SameDevices s t →
      s.pc.toNat = 255 ∨
      ∃ i s' a, fetchDecode s = .instr i s' ∧ (dataReadAddress i s' = some a ∨ dataWriteAddress i s' = some a) ∧
        a.toNat = 255) ∧
    t.consumed ++ t.pending = s.consumed ++ s.pending ∧ s.output <+: t.output ∧ s.consumed <+: t.consumed

/-- From a legal pc, a step leaves 0 to 255 only by JMPR with a register of 256 or more, or by going on from
`pc = 255` to 256 (R242, R28, which the spec derives). -/
def Obligations.PcLeavesTheAddressSpaceOnlyByJmprOrFallingOff : Prop :=
  ∀ s t : State, s.pc.toNat ≤ 255 → step s = .next t → 256 ≤ t.pc.toNat →
    (∃ r s', fetchDecode s = .instr (.jmpr r) s' ∧ t.pc = s'.readReg r) ∨
    (s.pc.toNat = 255 ∧ t.pc.toNat = 256)

/-- One step writes at most one register, and never both a register and memory (R36, which the spec derives; that a
store writes one cell is `OnlyStoresChangeMemory`). -/
def Obligations.OneWritePerStep : Prop :=
  ∀ s t : State, step s = .next t → (∃ d, OnlyReg d s t) ∧ (SameRegs s t ∨ SameMemory s t)

/-- The trace changes nothing: whatever it holds before a step, the step does the same to everything else and emits the
same events (R161). -/
def Obligations.TraceNeverInfluencesTheMachine : Prop :=
  ∀ (s : State) (tr : List Event),
    ∃ t u es, step s = .next t ∧ step { s with trace := tr } = .next u ∧ t.trace = s.trace ++ es ∧
      u = { t with trace := tr ++ es }

/-- A store to the cell of the next instruction is seen by its fetch: after `STOR xd, pc+1` the next step executes the
word in `x[d]` (R68, which the spec derives). -/
def Obligations.StoreIsSeenByTheNextFetch : Prop :=
  ∀ (s : State) (d : Reg) (addr : Addr8), s.run = .running → s.pc.toNat + 1 ≤ 254 →
    addr.toNat = s.pc.toNat + 1 → decode (s.cell s.pc.toNat) = .stor d addr →
    ∃ t s', step s = .next t ∧ t.run = .running ∧ t.pc.toNat = addr.toNat ∧
      fetchDecode t = .instr (decode (s.readReg d)) s' ∧ SameRegs s s'

/-! ### Reset and launch -/

/-- Reset: every register and every cell 0, `pc` 16, running, no cause (R34, R270; the cause is the spec's decision D7,
log 12), and around the core nothing has happened and no input is supplied yet (the model's choice, log 2). -/
def Obligations.ResetValues : Prop :=
  (∀ r, State.reset.readReg r = 0) ∧ (∀ a, State.reset.cell a = 0) ∧ State.reset.pc.toNat = 16 ∧
    State.reset.run = .running ∧ State.reset.haltCause = .none ∧ State.reset.pending = [] ∧
    State.reset.consumed = [] ∧ State.reset.output = [] ∧ State.reset.trace = []

/-- Launch: an image of at most 239 words stands in the cells from 16 on, every other cell is 0, and all else is as at
reset; a longer image is refused (R271; the spec's decision D10, log 10). -/
def Obligations.LaunchPlacesTheImage : Prop :=
  ∀ img : List Word,
    (img.length ≤ 239 →
      ∃ s, State.launch img = some s ∧
        (∀ a, s.cell a = if 16 ≤ a ∧ a < 16 + img.length then img.getD (a - 16) 0 else 0) ∧
        MemoryInv s ∧ { s with mem := [] } = State.reset) ∧
    (239 < img.length → State.launch img = none)

/-- An image file is a sequence of big-endian words, and a file of odd length is refused (R272; the refusal is the
spec's U7, log 10). -/
def Obligations.ImageFileIsBigEndianWords : Prop :=
  (∀ img : List Word,
    fileWords (img.flatMap fun w => [BitVec.ofNat 8 (w.toNat / 256), BitVec.ofNat 8 (w.toNat % 256)]) = some img) ∧
  ∀ bytes : List Byte, (fileWords bytes).isSome = fileWhole bytes
end

