-- ==== Sys2Proof/Laws/State.lean ====
section
/-! SUPPORT. One lemma per field per update of the state, so that no proof unfolds a record update. -/

namespace Sys2Proof.Machine

/-! ### writeReg: every field but the register bank -/

@[simp] theorem State.writeReg_pc (s : State) (d : Reg) (v : Word) : (s.writeReg d v).pc = s.pc := by
  unfold State.writeReg; split <;> rfl
@[simp] theorem State.writeReg_mem (s : State) (d : Reg) (v : Word) : (s.writeReg d v).mem = s.mem := by
  unfold State.writeReg; split <;> rfl
@[simp] theorem State.writeReg_run (s : State) (d : Reg) (v : Word) : (s.writeReg d v).run = s.run := by
  unfold State.writeReg; split <;> rfl
@[simp] theorem State.writeReg_haltCause (s : State) (d : Reg) (v : Word) : (s.writeReg d v).haltCause = s.haltCause := by
  unfold State.writeReg; split <;> rfl
@[simp] theorem State.writeReg_pending (s : State) (d : Reg) (v : Word) : (s.writeReg d v).pending = s.pending := by
  unfold State.writeReg; split <;> rfl
@[simp] theorem State.writeReg_consumed (s : State) (d : Reg) (v : Word) : (s.writeReg d v).consumed = s.consumed := by
  unfold State.writeReg; split <;> rfl
@[simp] theorem State.writeReg_output (s : State) (d : Reg) (v : Word) : (s.writeReg d v).output = s.output := by
  unfold State.writeReg; split <;> rfl
@[simp] theorem State.writeReg_trace (s : State) (d : Reg) (v : Word) : (s.writeReg d v).trace = s.trace := by
  unfold State.writeReg; split <;> rfl

/-! ### setPc -/

@[simp] theorem State.setPc_regs (s : State) (v : Word) : (s.setPc v).regs = s.regs := rfl
@[simp] theorem State.setPc_pc (s : State) (v : Word) : (s.setPc v).pc = v := rfl
@[simp] theorem State.setPc_mem (s : State) (v : Word) : (s.setPc v).mem = s.mem := rfl
@[simp] theorem State.setPc_run (s : State) (v : Word) : (s.setPc v).run = s.run := rfl
@[simp] theorem State.setPc_haltCause (s : State) (v : Word) : (s.setPc v).haltCause = s.haltCause := rfl
@[simp] theorem State.setPc_pending (s : State) (v : Word) : (s.setPc v).pending = s.pending := rfl
@[simp] theorem State.setPc_consumed (s : State) (v : Word) : (s.setPc v).consumed = s.consumed := rfl
@[simp] theorem State.setPc_output (s : State) (v : Word) : (s.setPc v).output = s.output := rfl
@[simp] theorem State.setPc_trace (s : State) (v : Word) : (s.setPc v).trace = s.trace := rfl

/-! ### advance -/

@[simp] theorem State.advance_regs (s : State) : s.advance.regs = s.regs := rfl
@[simp] theorem State.advance_pc (s : State) : s.advance.pc = s.nextPc := rfl
@[simp] theorem State.advance_mem (s : State) : s.advance.mem = s.mem := rfl
@[simp] theorem State.advance_run (s : State) : s.advance.run = s.run := rfl
@[simp] theorem State.advance_haltCause (s : State) : s.advance.haltCause = s.haltCause := rfl
@[simp] theorem State.advance_pending (s : State) : s.advance.pending = s.pending := rfl
@[simp] theorem State.advance_consumed (s : State) : s.advance.consumed = s.consumed := rfl
@[simp] theorem State.advance_output (s : State) : s.advance.output = s.output := rfl
@[simp] theorem State.advance_trace (s : State) : s.advance.trace = s.trace := rfl

/-! ### setCell -/

@[simp] theorem State.setCell_regs (s : State) (a : Nat) (v : Word) : (s.setCell a v).regs = s.regs := rfl
@[simp] theorem State.setCell_pc (s : State) (a : Nat) (v : Word) : (s.setCell a v).pc = s.pc := rfl
@[simp] theorem State.setCell_mem (s : State) (a : Nat) (v : Word) : (s.setCell a v).mem = s.mem.writeCell a v := rfl
@[simp] theorem State.setCell_run (s : State) (a : Nat) (v : Word) : (s.setCell a v).run = s.run := rfl
@[simp] theorem State.setCell_haltCause (s : State) (a : Nat) (v : Word) : (s.setCell a v).haltCause = s.haltCause := rfl
@[simp] theorem State.setCell_pending (s : State) (a : Nat) (v : Word) : (s.setCell a v).pending = s.pending := rfl
@[simp] theorem State.setCell_consumed (s : State) (a : Nat) (v : Word) : (s.setCell a v).consumed = s.consumed := rfl
@[simp] theorem State.setCell_output (s : State) (a : Nat) (v : Word) : (s.setCell a v).output = s.output := rfl
@[simp] theorem State.setCell_trace (s : State) (a : Nat) (v : Word) : (s.setCell a v).trace = s.trace := rfl

/-! ### emit -/

@[simp] theorem State.emit_regs (s : State) (e : Event) : (s.emit e).regs = s.regs := rfl
@[simp] theorem State.emit_pc (s : State) (e : Event) : (s.emit e).pc = s.pc := rfl
@[simp] theorem State.emit_mem (s : State) (e : Event) : (s.emit e).mem = s.mem := rfl
@[simp] theorem State.emit_run (s : State) (e : Event) : (s.emit e).run = s.run := rfl
@[simp] theorem State.emit_haltCause (s : State) (e : Event) : (s.emit e).haltCause = s.haltCause := rfl
@[simp] theorem State.emit_pending (s : State) (e : Event) : (s.emit e).pending = s.pending := rfl
@[simp] theorem State.emit_consumed (s : State) (e : Event) : (s.emit e).consumed = s.consumed := rfl
@[simp] theorem State.emit_output (s : State) (e : Event) : (s.emit e).output = s.output := rfl
@[simp] theorem State.emit_trace (s : State) (e : Event) : (s.emit e).trace = s.trace ++ [e] := rfl

/-! ### takeInput -/

@[simp] theorem State.takeInput_regs (s : State) (v : Int) (rest : List Int) : (s.takeInput v rest).regs = s.regs := rfl
@[simp] theorem State.takeInput_pc (s : State) (v : Int) (rest : List Int) : (s.takeInput v rest).pc = s.pc := rfl
@[simp] theorem State.takeInput_mem (s : State) (v : Int) (rest : List Int) : (s.takeInput v rest).mem = s.mem := rfl
@[simp] theorem State.takeInput_run (s : State) (v : Int) (rest : List Int) : (s.takeInput v rest).run = s.run := rfl
@[simp] theorem State.takeInput_haltCause (s : State) (v : Int) (rest : List Int) : (s.takeInput v rest).haltCause = s.haltCause := rfl
@[simp] theorem State.takeInput_pending (s : State) (v : Int) (rest : List Int) : (s.takeInput v rest).pending = rest := rfl
@[simp] theorem State.takeInput_consumed (s : State) (v : Int) (rest : List Int) : (s.takeInput v rest).consumed = s.consumed ++ [v] := rfl
@[simp] theorem State.takeInput_output (s : State) (v : Int) (rest : List Int) : (s.takeInput v rest).output = s.output := rfl
@[simp] theorem State.takeInput_trace (s : State) (v : Int) (rest : List Int) : (s.takeInput v rest).trace = s.trace ++ [.input v (enc16 (clamp16 v))] := rfl

/-! ### sendOutput -/

@[simp] theorem State.sendOutput_regs (s : State) (w : Word) : (s.sendOutput w).regs = s.regs := rfl
@[simp] theorem State.sendOutput_pc (s : State) (w : Word) : (s.sendOutput w).pc = s.pc := rfl
@[simp] theorem State.sendOutput_mem (s : State) (w : Word) : (s.sendOutput w).mem = s.mem := rfl
@[simp] theorem State.sendOutput_run (s : State) (w : Word) : (s.sendOutput w).run = s.run := rfl
@[simp] theorem State.sendOutput_haltCause (s : State) (w : Word) : (s.sendOutput w).haltCause = s.haltCause := rfl
@[simp] theorem State.sendOutput_pending (s : State) (w : Word) : (s.sendOutput w).pending = s.pending := rfl
@[simp] theorem State.sendOutput_consumed (s : State) (w : Word) : (s.sendOutput w).consumed = s.consumed := rfl
@[simp] theorem State.sendOutput_output (s : State) (w : Word) : (s.sendOutput w).output = s.output ++ [dec16 w] := rfl
@[simp] theorem State.sendOutput_trace (s : State) (w : Word) : (s.sendOutput w).trace = s.trace ++ [.output w (dec16 w)] := rfl

/-! ### halt -/

@[simp] theorem State.halt_regs (s : State) (c : HaltCause) : (s.halt c).regs = s.regs := rfl
@[simp] theorem State.halt_pc (s : State) (c : HaltCause) : (s.halt c).pc = s.pc := rfl
@[simp] theorem State.halt_mem (s : State) (c : HaltCause) : (s.halt c).mem = s.mem := rfl
@[simp] theorem State.halt_run (s : State) (c : HaltCause) : (s.halt c).run = .halted := rfl
@[simp] theorem State.halt_haltCause (s : State) (c : HaltCause) : (s.halt c).haltCause = c := rfl
@[simp] theorem State.halt_pending (s : State) (c : HaltCause) : (s.halt c).pending = s.pending := rfl
@[simp] theorem State.halt_consumed (s : State) (c : HaltCause) : (s.halt c).consumed = s.consumed := rfl
@[simp] theorem State.halt_output (s : State) (c : HaltCause) : (s.halt c).output = s.output := rfl
@[simp] theorem State.halt_trace (s : State) (c : HaltCause) : (s.halt c).trace = s.trace ++ [.halt c] := rfl

/-! ### raiseIllegalAddress -/

@[simp] theorem State.raiseIllegalAddress_regs (s : State) (k : AccessKind) (a : Word) : (s.raiseIllegalAddress k a).regs = s.regs := rfl
@[simp] theorem State.raiseIllegalAddress_pc (s : State) (k : AccessKind) (a : Word) : (s.raiseIllegalAddress k a).pc = s.pc := rfl
@[simp] theorem State.raiseIllegalAddress_mem (s : State) (k : AccessKind) (a : Word) : (s.raiseIllegalAddress k a).mem = s.mem := rfl
@[simp] theorem State.raiseIllegalAddress_run (s : State) (k : AccessKind) (a : Word) : (s.raiseIllegalAddress k a).run = .halted := rfl
@[simp] theorem State.raiseIllegalAddress_haltCause (s : State) (k : AccessKind) (a : Word) : (s.raiseIllegalAddress k a).haltCause = .addressFault k a := rfl
@[simp] theorem State.raiseIllegalAddress_pending (s : State) (k : AccessKind) (a : Word) : (s.raiseIllegalAddress k a).pending = s.pending := rfl
@[simp] theorem State.raiseIllegalAddress_consumed (s : State) (k : AccessKind) (a : Word) : (s.raiseIllegalAddress k a).consumed = s.consumed := rfl
@[simp] theorem State.raiseIllegalAddress_output (s : State) (k : AccessKind) (a : Word) : (s.raiseIllegalAddress k a).output = s.output := rfl
@[simp] theorem State.raiseIllegalAddress_trace (s : State) (k : AccessKind) (a : Word) : (s.raiseIllegalAddress k a).trace = s.trace ++ [.halt (.addressFault k a)] := rfl

/-! ### nextPc, readReg and cell see only their own field -/

@[simp] theorem State.setPc_readReg (s : State) (v : Word) (r : Reg) : (s.setPc v).readReg r = s.readReg r := rfl
@[simp] theorem State.setPc_cell (s : State) (v : Word) (k : Nat) : (s.setPc v).cell k = s.cell k := rfl
@[simp] theorem State.advance_readReg (s : State) (r : Reg) : s.advance.readReg r = s.readReg r := rfl
@[simp] theorem State.advance_cell (s : State) (k : Nat) : s.advance.cell k = s.cell k := rfl
@[simp] theorem State.setCell_nextPc (s : State) (a : Nat) (v : Word) : (s.setCell a v).nextPc = s.nextPc := rfl
@[simp] theorem State.setCell_readReg (s : State) (a : Nat) (v : Word) (r : Reg) : (s.setCell a v).readReg r = s.readReg r := rfl
@[simp] theorem State.emit_nextPc (s : State) (e : Event) : (s.emit e).nextPc = s.nextPc := rfl
@[simp] theorem State.emit_readReg (s : State) (e : Event) (r : Reg) : (s.emit e).readReg r = s.readReg r := rfl
@[simp] theorem State.emit_cell (s : State) (e : Event) (k : Nat) : (s.emit e).cell k = s.cell k := rfl
@[simp] theorem State.takeInput_nextPc (s : State) (v : Int) (rest : List Int) : (s.takeInput v rest).nextPc = s.nextPc := rfl
@[simp] theorem State.takeInput_readReg (s : State) (v : Int) (rest : List Int) (r : Reg) : (s.takeInput v rest).readReg r = s.readReg r := rfl
@[simp] theorem State.takeInput_cell (s : State) (v : Int) (rest : List Int) (k : Nat) : (s.takeInput v rest).cell k = s.cell k := rfl
@[simp] theorem State.sendOutput_nextPc (s : State) (w : Word) : (s.sendOutput w).nextPc = s.nextPc := rfl
@[simp] theorem State.sendOutput_readReg (s : State) (w : Word) (r : Reg) : (s.sendOutput w).readReg r = s.readReg r := rfl
@[simp] theorem State.sendOutput_cell (s : State) (w : Word) (k : Nat) : (s.sendOutput w).cell k = s.cell k := rfl
@[simp] theorem State.halt_nextPc (s : State) (c : HaltCause) : (s.halt c).nextPc = s.nextPc := rfl
@[simp] theorem State.halt_readReg (s : State) (c : HaltCause) (r : Reg) : (s.halt c).readReg r = s.readReg r := rfl
@[simp] theorem State.halt_cell (s : State) (c : HaltCause) (k : Nat) : (s.halt c).cell k = s.cell k := rfl
@[simp] theorem State.raiseIllegalAddress_nextPc (s : State) (k : AccessKind) (a : Word) : (s.raiseIllegalAddress k a).nextPc = s.nextPc := rfl
@[simp] theorem State.raiseIllegalAddress_readReg (s : State) (k : AccessKind) (a : Word) (r : Reg) : (s.raiseIllegalAddress k a).readReg r = s.readReg r := rfl
@[simp] theorem State.raiseIllegalAddress_cell (s : State) (k : AccessKind) (a : Word) (j : Nat) : (s.raiseIllegalAddress k a).cell j = s.cell j := rfl
@[simp] theorem State.writeReg_nextPc (s : State) (d : Reg) (v : Word) : (s.writeReg d v).nextPc = s.nextPc := by
  simp [State.nextPc]
@[simp] theorem State.writeReg_cell (s : State) (d : Reg) (v : Word) (k : Nat) :
    (s.writeReg d v).cell k = s.cell k := by
  simp [State.cell]

end Sys2Proof.Machine
end

