-- ==== Sys2Proof/Laws/Memory.lean ====
section
/-! SUPPORT. The memory image: read after write, and the canonical form that every memory operation keeps
(spec/20_memory.md R52, R55). -/

namespace Sys2Proof.Machine

/-- A filtered-out address reads as unlisted, any other as before. -/
theorem Memory.readByte_filter (m : Memory) (k j : Nat) :
    Memory.readByte (m.filter (fun c => c.1 != k)) j =
      if j = k then Config.unlistedByte else m.readByte j := by
  induction m with
  | nil => simp [Memory.readByte]
  | cons c m ih =>
    by_cases hc : c.1 = k
    · simp only [hc, bne_self_eq_false, Bool.false_eq_true, not_false_eq_true, List.filter_cons_of_neg, ih,
        Memory.readByte]
      by_cases hj : j = k
      · simp [hj]
      · simp [hj, Ne.symm hj]
    · have hc' : (c.1 != k) = true := by simpa using hc
      simp only [List.filter_cons_of_pos (p := fun c : Host.Cell => c.1 != k) hc', Memory.readByte, ih]
      by_cases hj : c.1 = j
      · subst hj; simp [hc]
      · simp [hj]

/-- Inserting at an address that is not listed changes that address alone. -/
theorem Memory.readByte_insertByte (k : Nat) (v : Byte) (m : Memory) (hk : ∀ c ∈ m, c.1 ≠ k) (j : Nat) :
    (Memory.insertByte k v m).readByte j = if j = k then v else m.readByte j := by
  induction m with
  | nil =>
    by_cases hj : j = k
    · simp [Memory.insertByte, Memory.readByte, hj]
    · simp [Memory.insertByte, Memory.readByte, hj, Ne.symm hj]
  | cons c m ih =>
    have hc : c.1 ≠ k := hk c (by simp)
    have ih' := ih (fun d hd => hk d (by simp [hd]))
    by_cases hj : j = k
    · subst hj
      unfold Memory.insertByte
      split
      · simp [Memory.readByte]
      · simp [Memory.readByte, hc, ih']
    · unfold Memory.insertByte
      split
      · simp [Memory.readByte, Ne.symm hj]
      · simp [Memory.readByte, hj, ih']

/-- All a byte write can do: the byte written reads as written, every other byte as before. -/
theorem Memory.readByte_writeByte (m : Memory) (k j : Nat) (v : Byte) :
    (m.writeByte k v).readByte j = if j = k then v else m.readByte j := by
  unfold Memory.writeByte
  by_cases hv : v = Config.unlistedByte
  · simp [hv, Memory.readByte_filter]
  · have hk : ∀ c ∈ m.filter (fun c => c.1 != k), c.1 ≠ k := by simp
    simp only [hv, if_false, Memory.readByte_insertByte k v _ hk, Memory.readByte_filter]
    by_cases hj : j = k <;> simp [hj]

/-- A cell write leaves every byte outside the cell as it was. -/
theorem Memory.readByte_writeCell (m : Memory) (a : Nat) (v : Word) (k : Nat)
    (h₀ : k ≠ 2 * a) (h₁ : k ≠ 2 * a + 1) : (m.writeCell a v).readByte k = m.readByte k := by
  simp [Memory.writeCell, Memory.readByte_writeByte, h₀, h₁]

/-- The two halves of a word make the word. -/
theorem word_halves (v : Word) : v.extractLsb' 8 8 ++ v.extractLsb' 0 8 = v := by
  apply BitVec.eq_of_getLsbD_eq
  intro i hi
  rw [BitVec.getLsbD_append]
  by_cases h : i < 8
  · simp [h]
  · have h8 : i - 8 < 8 := by omega
    simp [h, h8, show 8 + (i - 8) = i by omega]

/-- All a cell write can do: the cell written reads as written, every other cell as before (R55). -/
theorem Memory.readCell_writeCell (m : Memory) (a b : Nat) (v : Word) :
    (m.writeCell a v).readCell b = if b = a then v else m.readCell b := by
  by_cases h : b = a
  · subst h
    simp only [Memory.readCell, Memory.writeCell, Memory.readByte_writeByte]
    simp [word_halves]
  · have h₁ : 2 * b ≠ 2 * a := by omega
    have h₂ : 2 * b ≠ 2 * a + 1 := by omega
    have h₃ : 2 * b + 1 ≠ 2 * a := by omega
    have h₄ : 2 * b + 1 ≠ 2 * a + 1 := by omega
    simp only [Memory.readCell, Memory.readByte_writeCell _ _ _ _ h₁ h₂,
      Memory.readByte_writeCell _ _ _ _ h₃ h₄, h, if_false]

@[simp] theorem State.setCell_cell (s : State) (a b : Nat) (v : Word) :
    (s.setCell a v).cell b = if b = a then v else s.cell b := Memory.readCell_writeCell _ _ _ _

/-- What a list with an inserted entry holds. -/
theorem Memory.mem_insertByte {k : Nat} {v : Byte} {m : Memory} {c : Host.Cell}
    (h : c ∈ Memory.insertByte k v m) : c = (k, v) ∨ c ∈ m := by
  induction m with
  | nil => simpa [Memory.insertByte] using h
  | cons d m ih =>
    unfold Memory.insertByte at h
    split at h
    · simpa using h
    · rcases List.mem_cons.1 h with h | h
      · simp [h]
      · rcases ih h with h | h <;> simp [h]

/-- Inserting at an address that is not listed keeps the addresses rising. -/
theorem Memory.rising_insertByte {k : Nat} {v : Byte} {m : Memory} (hk : ∀ c ∈ m, c.1 ≠ k)
    (h : m.Pairwise (fun c d => c.1 < d.1)) :
    (Memory.insertByte k v m).Pairwise (fun c d => c.1 < d.1) := by
  induction m with
  | nil => simp [Memory.insertByte]
  | cons c m ih =>
    obtain ⟨hc, hm⟩ := List.pairwise_cons.1 h
    have hck : c.1 ≠ k := hk c (by simp)
    unfold Memory.insertByte
    split
    · rename_i hlt
      refine List.pairwise_cons.2 ⟨?_, h⟩
      intro d hd
      rcases List.mem_cons.1 hd with rfl | hd
      · exact hlt
      · exact lt_trans hlt (hc d hd)
    · rename_i hge
      refine List.pairwise_cons.2 ⟨?_, ih (fun d hd => hk d (by simp [hd])) hm⟩
      intro d hd
      rcases Memory.mem_insertByte hd with rfl | hd
      · show c.1 < k
        omega
      · exact hc d hd

/-- A byte write inside the cells keeps the canonical form. -/
theorem Memory.wf_writeByte {m : Memory} (h : m.wf) {k : Nat} (hk : k < 2 * Config.memWords) (v : Byte) :
    (m.writeByte k v).wf := by
  obtain ⟨hr, he⟩ := h
  have hr' : (m.filter (fun c => c.1 != k)).Pairwise (fun c d => c.1 < d.1) := hr.filter _
  have he' : ∀ c ∈ m.filter (fun c => c.1 != k), c.2 ≠ Config.unlistedByte ∧ c.1 < 2 * Config.memWords :=
    fun c hc => he c (List.mem_filter.1 hc).1
  have hk' : ∀ c ∈ m.filter (fun c => c.1 != k), c.1 ≠ k := by simp
  unfold Memory.writeByte
  split
  · exact ⟨hr', he'⟩
  · rename_i hv
    refine ⟨Memory.rising_insertByte hk' hr', fun c hc => ?_⟩
    rcases Memory.mem_insertByte hc with rfl | hc
    · exact ⟨hv, hk⟩
    · exact he' c hc

/-- A cell write to RAM keeps the canonical form. -/
theorem Memory.wf_writeCell {m : Memory} (h : m.wf) {a : Nat} (ha : a < Config.memWords) (v : Word) :
    (m.writeCell a v).wf := by
  unfold Memory.writeCell
  exact Memory.wf_writeByte (Memory.wf_writeByte h (by omega) _) (by omega) _

/-- The reset memory has the canonical form. -/
theorem Memory.wf_reset : State.reset.mem.wf := by decide

/-- Two memories in canonical form that read the same byte everywhere are the same data. -/
theorem Memory.eq_of_readByte_eq {m n : Memory} (hm : m.wf) (hn : n.wf)
    (h : ∀ k, m.readByte k = n.readByte k) : m = n := by
  have below : ∀ (l : Memory) (k : Nat), (∀ c ∈ l, k < c.1) → l.readByte k = Config.unlistedByte := by
    intro l k
    induction l with
    | nil => simp [Memory.readByte]
    | cons c l ih =>
      intro hl
      have := hl c (by simp)
      simp [Memory.readByte, show c.1 ≠ k by omega, ih (fun d hd => hl d (by simp [hd]))]
  induction m generalizing n with
  | nil =>
    cases n with
    | nil => rfl
    | cons c n =>
      have := h c.1
      simp only [Memory.readByte, if_true] at this
      exact absurd this.symm (hn.2 c (by simp)).1
  | cons c m ih =>
    cases n with
    | nil =>
      have := h c.1
      simp only [Memory.readByte, if_true] at this
      exact absurd this (hm.2 c (by simp)).1
    | cons d n =>
      obtain ⟨hcm, hm1⟩ := List.pairwise_cons.1 hm.1
      obtain ⟨hdn, hn1⟩ := List.pairwise_cons.1 hn.1
      have hc := h c.1
      have hd := h d.1
      have key : c.1 = d.1 := by
        rcases lt_trichotomy c.1 d.1 with hlt | heq | hgt
        · have : Memory.readByte (d :: n) c.1 = Config.unlistedByte := by
            refine below _ _ fun e he => ?_
            rcases List.mem_cons.1 he with rfl | he
            · exact hlt
            · exact lt_trans hlt (hdn e he)
          rw [this] at hc
          simp only [Memory.readByte, if_true] at hc
          exact absurd hc (hm.2 c (by simp)).1
        · exact heq
        · have : Memory.readByte (c :: m) d.1 = Config.unlistedByte := by
            refine below _ _ fun e he => ?_
            rcases List.mem_cons.1 he with rfl | he
            · exact hgt
            · exact lt_trans hgt (hcm e he)
          rw [this] at hd
          simp only [Memory.readByte, if_true] at hd
          exact absurd hd.symm (hn.2 d (by simp)).1
      have hv : c.2 = d.2 := by simpa [Memory.readByte, key] using hc
      have hcd : c = d := Prod.ext key hv
      subst hcd
      refine congrArg (c :: ·) (ih ⟨hm1, fun e he => hm.2 e (by simp [he])⟩
        ⟨hn1, fun e he => hn.2 e (by simp [he])⟩ fun k => ?_)
      by_cases hk : c.1 = k
      · subst hk
        rw [below m c.1 hcm, below n c.1 hdn]
      · simpa [Memory.readByte, hk] using h k

end Sys2Proof.Machine
end

