-- ==== Sys2Proof/Laws/Registers.lean ====
section
/-! SUPPORT. The register file: what a read after a write answers (spec/10_state.md R21 to R23). -/

namespace Sys2Proof.Machine

/-- Register 0 reads zero in every state (R22). -/
@[simp] theorem State.readReg_zero (s : State) : s.readReg 0#4 = 0#16 := by simp [State.readReg]

/-- A write to register 0 does nothing (R23). -/
@[simp] theorem State.writeReg_zero (s : State) (v : Word) : s.writeReg 0#4 v = s := by simp [State.writeReg]

/-- Two stored registers share a slot only if they are one register. -/
theorem regSlot_inj {r d : Reg} (hr : r ≠ 0#4) (hd : d ≠ 0#4) (h : regSlot r = regSlot d) : r = d := by
  have hr' : r.toNat ≠ 0 := fun h0 => hr (BitVec.eq_of_toNat_eq (by simpa using h0))
  have hd' : d.toNat ≠ 0 := fun h0 => hd (BitVec.eq_of_toNat_eq (by simpa using h0))
  have h' : r.toNat - 1 = d.toNat - 1 := congrArg Fin.val h
  exact BitVec.eq_of_toNat_eq (by omega)

/-- All a register write can do to the registers (R22, R23). -/
theorem State.readReg_writeReg (s : State) (d r : Reg) (v : Word) :
    (s.writeReg d v).readReg r = if r = d ∧ d ≠ 0#4 then v else s.readReg r := by
  by_cases hd : d = 0#4
  · simp [hd]
  by_cases hr : r = 0#4
  · subst hr; simp [Ne.symm hd]
  by_cases hrd : r = d
  · subst hrd; simp [State.readReg, State.writeReg, hr]
  · have hne : (regSlot d).val ≠ (regSlot r).val := fun h => hrd (regSlot_inj hr hd (Fin.ext h.symm))
    simp [State.readReg, State.writeReg, hr, hd, hrd, hne]

/-- A register other than the one written reads as before. -/
theorem State.readReg_writeReg_ne (s : State) {d r : Reg} (v : Word) (h : r ≠ d) :
    (s.writeReg d v).readReg r = s.readReg r := by
  simp [State.readReg_writeReg, h]

/-- The register written reads what was written, unless it is register 0. -/
theorem State.readReg_writeReg_self (s : State) (d : Reg) (v : Word) :
    (s.writeReg d v).readReg d = if d = 0#4 then 0#16 else v := by
  by_cases hd : d = 0#4 <;> simp [State.readReg_writeReg, hd]

end Sys2Proof.Machine
end

