-- ==== Sys2Proof/Laws/Bus.lean ====
section
/-! SUPPORT. The memory bus: the class of an address, and all that a bus read or write can answer
(spec/20_memory.md R51 to R57). -/

namespace Sys2Proof.Machine

/-! ### Classes of address -/

theorem addrClass_ram {a : Word} (h : a.toNat ≤ 254) : addrClass a = .ram := by
  simp [addrClass, Config.memWords, show a.toNat < 255 by omega]

theorem addrClass_port {a : Word} (h : a.toNat = 255) : addrClass a = .port := by
  simp [addrClass, Config.memWords, Config.ioAddr, h]

theorem addrClass_illegal {a : Word} (h : 256 ≤ a.toNat) : addrClass a = .illegal := by
  simp [addrClass, Config.memWords, Config.ioAddr, show ¬a.toNat < 255 by omega, show ¬a.toNat = 255 by omega]

/-- Every address is in exactly one class (R51). -/
theorem addrClass_cases (a : Word) :
    (a.toNat ≤ 254 ∧ addrClass a = .ram) ∨ (a.toNat = 255 ∧ addrClass a = .port) ∨
      (256 ≤ a.toNat ∧ addrClass a = .illegal) := by
  rcases lt_trichotomy a.toNat 255 with h | h | h
  · exact .inl ⟨by omega, addrClass_ram (by omega)⟩
  · exact .inr (.inl ⟨h, addrClass_port h⟩)
  · exact .inr (.inr ⟨by omega, addrClass_illegal (by omega)⟩)

/-- A zero-extended 8-bit field is below 256 (R64). -/
@[simp] theorem zext16_toNat (x : Addr8) : (zext16 x).toNat = x.toNat := by
  have := x.isLt
  simp only [zext16, BitVec.toNat_setWidth]
  omega

/-- A direct address is never illegal (R64). -/
theorem zext16_lt (x : Addr8) : (zext16 x).toNat < 256 := by
  have := x.isLt
  simpa using this

/-! ### Reads -/

theorem State.memRead_ram (s : State) {a : Word} (h : a.toNat ≤ 254) :
    s.memRead a = .value (s.cell a.toNat) s := by simp [State.memRead, addrClass_ram h]

theorem State.memRead_port {s : State} {a : Word} (h : a.toNat = 255) {v : Int} {rest : List Int}
    (hp : s.pending = v :: rest) : s.memRead a = .value (enc16 (clamp16 v)) (s.takeInput v rest) := by
  simp [State.memRead, addrClass_port h, hp]

theorem State.memRead_waiting {s : State} {a : Word} (h : a.toNat = 255) (hp : s.pending = []) :
    s.memRead a = .waiting := by simp [State.memRead, addrClass_port h, hp]

theorem State.memRead_illegal (s : State) {a : Word} (h : 256 ≤ a.toNat) : s.memRead a = .illegal := by
  simp [State.memRead, addrClass_illegal h]

/-- All a bus read can answer (R73). -/
theorem State.memRead_cases (s : State) (a : Word) :
    (a.toNat ≤ 254 ∧ s.memRead a = .value (s.cell a.toNat) s) ∨
    (∃ v rest, a.toNat = 255 ∧ s.pending = v :: rest ∧
      s.memRead a = .value (enc16 (clamp16 v)) (s.takeInput v rest)) ∨
    (a.toNat = 255 ∧ s.pending = [] ∧ s.memRead a = .waiting) ∨
    (256 ≤ a.toNat ∧ s.memRead a = .illegal) := by
  rcases addrClass_cases a with ⟨h, -⟩ | ⟨h, -⟩ | ⟨h, -⟩
  · exact .inl ⟨h, s.memRead_ram h⟩
  · rcases hp : s.pending with _ | ⟨v, rest⟩
    · exact .inr (.inr (.inl ⟨h, rfl, State.memRead_waiting h hp⟩))
    · exact .inr (.inl ⟨v, rest, h, rfl, State.memRead_port h hp⟩)
  · exact .inr (.inr (.inr ⟨h, s.memRead_illegal h⟩))

theorem State.dataRead_ram (s : State) {a : Word} (h : a.toNat ≤ 254) :
    s.dataRead a = .value (s.cell a.toNat) (s.emit (.memRead a (s.cell a.toNat))) := by
  simp [State.dataRead, addrClass_ram h]

/-- Off RAM a data read is the plain bus read. -/
theorem State.dataRead_eq_memRead (s : State) {a : Word} (h : 255 ≤ a.toNat) : s.dataRead a = s.memRead a := by
  rcases addrClass_cases a with ⟨h', -⟩ | ⟨-, hc⟩ | ⟨-, hc⟩
  · omega
  · simp [State.dataRead, hc]
  · simp [State.dataRead, State.memRead, hc]

/-- All a data read can answer (R73, R161). -/
theorem State.dataRead_cases (s : State) (a : Word) :
    (a.toNat ≤ 254 ∧ s.dataRead a = .value (s.cell a.toNat) (s.emit (.memRead a (s.cell a.toNat)))) ∨
    (∃ v rest, a.toNat = 255 ∧ s.pending = v :: rest ∧
      s.dataRead a = .value (enc16 (clamp16 v)) (s.takeInput v rest)) ∨
    (a.toNat = 255 ∧ s.pending = [] ∧ s.dataRead a = .waiting) ∨
    (256 ≤ a.toNat ∧ s.dataRead a = .illegal) := by
  rcases Nat.lt_or_ge a.toNat 255 with h | h
  · exact .inl ⟨by omega, s.dataRead_ram (by omega)⟩
  · rw [s.dataRead_eq_memRead h]
    rcases s.memRead_cases a with ⟨h', -⟩ | h' | h' | h'
    · omega
    · exact .inr (.inl h')
    · exact .inr (.inr (.inl h'))
    · exact .inr (.inr (.inr h'))

/-! ### Writes -/

theorem State.memWrite_ram (s : State) {a : Word} (v : Word) (h : a.toNat ≤ 254) :
    s.memWrite a v = .done ((s.setCell a.toNat v).emit (.memWrite a v)) := by
  simp [State.memWrite, addrClass_ram h]

theorem State.memWrite_port (s : State) {a : Word} (v : Word) (h : a.toNat = 255) :
    s.memWrite a v = .done (s.sendOutput v) := by simp [State.memWrite, addrClass_port h]

theorem State.memWrite_illegal (s : State) {a : Word} (v : Word) (h : 256 ≤ a.toNat) :
    s.memWrite a v = .illegal := by simp [State.memWrite, addrClass_illegal h]

/-- All a bus write can answer (R73, R161). -/
theorem State.memWrite_cases (s : State) (a v : Word) :
    (a.toNat ≤ 254 ∧ s.memWrite a v = .done ((s.setCell a.toNat v).emit (.memWrite a v))) ∨
    (a.toNat = 255 ∧ s.memWrite a v = .done (s.sendOutput v)) ∨
    (256 ≤ a.toNat ∧ s.memWrite a v = .illegal) := by
  rcases addrClass_cases a with ⟨h, -⟩ | ⟨h, -⟩ | ⟨h, -⟩
  · exact .inl ⟨h, s.memWrite_ram v h⟩
  · exact .inr (.inl ⟨h, s.memWrite_port v h⟩)
  · exact .inr (.inr ⟨h, s.memWrite_illegal v h⟩)

/-- A store through the bus keeps the memory's canonical form. -/
theorem State.memWrite_keeps_wf {s t : State} {a v : Word} (h : s.memWrite a v = .done t) (hs : s.mem.wf) :
    t.mem.wf := by
  rcases s.memWrite_cases a v with ⟨ha, h'⟩ | ⟨-, h'⟩ | ⟨-, h'⟩ <;> rw [h'] at h
  · cases h
    exact Memory.wf_writeCell hs (show a.toNat < 255 by omega) v
  · cases h; exact hs
  · cases h

/-! ### The value boundary -/

/-- What the output device receives is a signed 16-bit value (R71). -/
theorem dec16_range (w : Word) : -32768 ≤ dec16 w ∧ dec16 w ≤ 32767 := by
  have := w.isLt
  unfold dec16
  split <;> omega

end Sys2Proof.Machine
end

