-- ==== Sys2Proof/Laws/Encoding.lean ====
section
/-! SUPPORT. What the fields of a composed word are (spec/30_encoding.md R91), and the opcode numbering (R94). -/

namespace Sys2Proof

/-- The opcode map is a numbering: the nibble of an opcode names that opcode. -/
@[simp] theorem Opcode.ofNibble_number (o : Opcode) : Opcode.ofNibble o.number = o := by cases o <;> decide

/-- Every nibble is the number of the opcode it names (R95). -/
@[simp] theorem Opcode.number_ofNibble (n : Nibble) : (Opcode.ofNibble n).number = n := by
  revert n; decide

/-- A bit of a word of format RR, by the field it falls in. -/
theorem wordRR_getLsbD (o : Opcode) (d s t : Nibble) (i : Nat) :
    (wordRR o d s t).getLsbD i =
      if i < 4 then t.getLsbD i
      else if i - 4 < 4 then s.getLsbD (i - 4)
      else if i - 4 - 4 < 4 then d.getLsbD (i - 4 - 4) else o.number.getLsbD (i - 4 - 4 - 4) := by
  unfold wordRR
  rw [BitVec.getLsbD_append, BitVec.getLsbD_append, BitVec.getLsbD_append]

/-- A bit of a word of format A, by the field it falls in. -/
theorem wordA_getLsbD (o : Opcode) (d : Nibble) (addr : Addr8) (i : Nat) :
    (wordA o d addr).getLsbD i =
      if i < 8 then addr.getLsbD i
      else if i - 8 < 4 then d.getLsbD (i - 8) else o.number.getLsbD (i - 8 - 4) := by
  unfold wordA
  rw [BitVec.getLsbD_append, BitVec.getLsbD_append]

/-- The fields of a word of format RR (R91). -/
theorem fieldsOf_wordRR (o : Opcode) (d s t : Nibble) :
    fieldsOf (wordRR o d s t) = ⟨o.number, d, s, t, s ++ t⟩ := by
  simp only [fieldsOf, Fields.mk.injEq]
  refine ⟨?_, ?_, ?_, ?_, ?_⟩ <;> apply BitVec.eq_of_getLsbD_eq <;> intro i hi
  · simp [wordRR_getLsbD, hi, show ¬12 + i < 4 by omega, show ¬12 + i - 4 < 4 by omega,
      show ¬12 + i - 4 - 4 < 4 by omega, show 12 + i - 4 - 4 - 4 = i by omega]
  · simp [wordRR_getLsbD, hi, show ¬8 + i < 4 by omega, show ¬8 + i - 4 < 4 by omega,
      show 8 + i - 4 - 4 = i by omega]
  · simp [wordRR_getLsbD, hi, show ¬4 + i < 4 by omega]
  · simp [wordRR_getLsbD, hi]
  · rw [BitVec.getLsbD_append]
    by_cases h : i < 4
    · simp [wordRR_getLsbD, hi, h]
    · simp [wordRR_getLsbD, hi, h, show i - 4 < 4 by omega]

/-- The fields of a word of format A (R91). -/
theorem fieldsOf_wordA (o : Opcode) (d : Nibble) (addr : Addr8) :
    fieldsOf (wordA o d addr) = ⟨o.number, d, addr.extractLsb' 4 4, addr.extractLsb' 0 4, addr⟩ := by
  simp only [fieldsOf, Fields.mk.injEq]
  refine ⟨?_, ?_, ?_, ?_, ?_⟩ <;> apply BitVec.eq_of_getLsbD_eq <;> intro i hi
  · simp [wordA_getLsbD, hi, show ¬12 + i < 8 by omega, show ¬12 + i - 8 < 4 by omega,
      show 12 + i - 8 - 4 = i by omega]
  · simp [wordA_getLsbD, hi, show ¬8 + i < 8 by omega]
  · simp [wordA_getLsbD, hi, show 4 + i < 8 by omega]
  · simp [wordA_getLsbD, hi, show i < 8 by omega]
  · simp [wordA_getLsbD, hi]

/-- Every term of `Instr` is well formed: its operand types are as wide as the fields (D17). -/
theorem Instr.wellFormed_all (i : Instr) : i.wellFormed = true := by
  have hr : ∀ r : Reg, regInRange r.toNat = true := fun r => decide_eq_true r.isLt
  have ha : ∀ a : Addr8, addrInRange a.toNat = true := fun a => decide_eq_true a.isLt
  cases i <;> simp [Instr.wellFormed, Instr.regOperands, Instr.addrOperands, hr, ha]

end Sys2Proof
end

