-- ==== Sys2Proof/Laws/PerInstr.lean ====
section
/-! SUPPORT. Laws stated of every instruction, one lemma per constructor of `Instr`. -/

namespace Sys2Proof.Laws.EncodeOpcode

/-- The canonical word of an instruction carries the instruction's own opcode number (spec/30_encoding.md R94). -/
def Statement (i : Instr) : Prop := (fieldsOf (encode i)).opcode = i.opcode.number

theorem halt : Statement (.halt) := by simp [Statement, encode, Instr.opcode, fieldsOf_wordRR]
theorem add (d : Reg) (s : Reg) (t : Reg) : Statement (.add d s t) := by simp [Statement, encode, Instr.opcode, fieldsOf_wordRR]
theorem sub (d : Reg) (s : Reg) (t : Reg) : Statement (.sub d s t) := by simp [Statement, encode, Instr.opcode, fieldsOf_wordRR]
theorem and (d : Reg) (s : Reg) (t : Reg) : Statement (.and d s t) := by simp [Statement, encode, Instr.opcode, fieldsOf_wordRR]
theorem xor (d : Reg) (s : Reg) (t : Reg) : Statement (.xor d s t) := by simp [Statement, encode, Instr.opcode, fieldsOf_wordRR]
theorem shl (d : Reg) (s : Reg) (t : Reg) : Statement (.shl d s t) := by simp [Statement, encode, Instr.opcode, fieldsOf_wordRR]
theorem shr (d : Reg) (s : Reg) (t : Reg) : Statement (.shr d s t) := by simp [Statement, encode, Instr.opcode, fieldsOf_wordRR]
theorem loada (d : Reg) (addr : Addr8) : Statement (.loada d addr) := by simp [Statement, encode, Instr.opcode, fieldsOf_wordA]
theorem load (d : Reg) (addr : Addr8) : Statement (.load d addr) := by simp [Statement, encode, Instr.opcode, fieldsOf_wordA]
theorem stor (d : Reg) (addr : Addr8) : Statement (.stor d addr) := by simp [Statement, encode, Instr.opcode, fieldsOf_wordA]
theorem loadi (d : Reg) (t : Reg) : Statement (.loadi d t) := by simp [Statement, encode, Instr.opcode, fieldsOf_wordRR]
theorem stori (d : Reg) (t : Reg) : Statement (.stori d t) := by simp [Statement, encode, Instr.opcode, fieldsOf_wordRR]
theorem bzero (d : Reg) (addr : Addr8) : Statement (.bzero d addr) := by simp [Statement, encode, Instr.opcode, fieldsOf_wordA]
theorem bposi (d : Reg) (addr : Addr8) : Statement (.bposi d addr) := by simp [Statement, encode, Instr.opcode, fieldsOf_wordA]
theorem jmpr (t : Reg) : Statement (.jmpr t) := by simp [Statement, encode, Instr.opcode, fieldsOf_wordRR]
theorem jmpl (d : Reg) (addr : Addr8) : Statement (.jmpl d addr) := by simp [Statement, encode, Instr.opcode, fieldsOf_wordA]

end Sys2Proof.Laws.EncodeOpcode
end

