-- ==== Sys2Proof/Laws/Step.lean ====
section
/-! SUPPORT. All that an instruction and a step can do, said once: one lemma per shared operation, one for `exec`, one
for `step` (spec/41_cpu_cycle_and_interfaces.md R159, R160). Later proofs cite these and unfold nothing. -/

namespace Sys2Proof.Machine

/-! ### The shared operations of the meanings -/

/-- All a load can do (R189). -/
theorem loadWord_cases (d : Reg) (a : Word) (s : State) :
    (a.toNat ≤ 254 ∧ loadWord d a s =
      .next ((s.emit (.memRead a (s.cell a.toNat))).writeReg d (s.cell a.toNat)).advance) ∨
    (∃ v rest, a.toNat = 255 ∧ s.pending = v :: rest ∧ loadWord d a s =
      .next ((s.takeInput v rest).writeReg d (enc16 (clamp16 v))).advance) ∨
    (a.toNat = 255 ∧ s.pending = [] ∧ loadWord d a s = .next s) ∨
    (256 ≤ a.toNat ∧ loadWord d a s = .next (s.raiseIllegalAddress .load a)) := by
  unfold loadWord
  rcases s.dataRead_cases a with ⟨h, e⟩ | ⟨v, rest, h, hp, e⟩ | ⟨h, hp, e⟩ | ⟨h, e⟩ <;> rw [e]
  · exact .inl ⟨h, rfl⟩
  · exact .inr (.inl ⟨v, rest, h, hp, rfl⟩)
  · exact .inr (.inr (.inl ⟨h, hp, rfl⟩))
  · exact .inr (.inr (.inr ⟨h, rfl⟩))

/-- All a store can do (R189). -/
theorem storeWord_cases (a v : Word) (s : State) :
    (a.toNat ≤ 254 ∧ storeWord a v s = .next ((s.setCell a.toNat v).emit (.memWrite a v)).advance) ∨
    (a.toNat = 255 ∧ storeWord a v s = .next (s.sendOutput v).advance) ∨
    (256 ≤ a.toNat ∧ storeWord a v s = .next (s.raiseIllegalAddress .store a)) := by
  unfold storeWord
  rcases s.memWrite_cases a v with ⟨h, e⟩ | ⟨h, e⟩ | ⟨h, e⟩ <;> rw [e]
  · exact .inl ⟨h, rfl⟩
  · exact .inr (.inl ⟨h, rfl⟩)
  · exact .inr (.inr ⟨h, rfl⟩)

/-- All a conditional branch can do (R27). -/
theorem branchIf_cases (b : Bool) (addr : Addr8) (s : State) :
    (b = true ∧ branchIf b addr s = .next (s.setPc (directTarget addr))) ∨
    (b = false ∧ branchIf b addr s = .next s.advance) := by
  cases b
  · exact .inr ⟨rfl, rfl⟩
  · exact .inl ⟨rfl, rfl⟩

/-! ### One instruction -/

/-- The ways an instruction can leave the state. -/
inductive Effect (i : Instr) (s : State) : State → Prop where
  /-- An ALU instruction or LOADA writes a register. -/
  | reg (d : Reg) (v : Word) : Effect i s (s.writeReg d v).advance
  /-- A load reads RAM. -/
  | loadRam (d : Reg) (a : Word) (hi : dataReadAddress i s = some a) (ha : a.toNat ≤ 254) :
      Effect i s ((s.emit (.memRead a (s.cell a.toNat))).writeReg d (s.cell a.toNat)).advance
  /-- A load takes one input value. -/
  | loadPort (d : Reg) (a : Word) (v : Int) (rest : List Int) (hi : dataReadAddress i s = some a)
      (ha : a.toNat = 255) (hp : s.pending = v :: rest) :
      Effect i s ((s.takeInput v rest).writeReg d (enc16 (clamp16 v))).advance
  /-- A load waits for input. -/
  | wait (a : Word) (hi : dataReadAddress i s = some a) (ha : a.toNat = 255) (hp : s.pending = []) : Effect i s s
  /-- A LOADI takes IllegalAddress. -/
  | loadFault (d t : Reg) (hi : i = .loadi d t) (ha : 256 ≤ (s.readReg t).toNat) :
      Effect i s (s.raiseIllegalAddress .load (s.readReg t))
  /-- A store writes a cell. -/
  | storeRam (d : Reg) (a : Word) (hi : dataWriteAddress i s = some a) (ha : a.toNat ≤ 254) :
      Effect i s ((s.setCell a.toNat (s.readReg d)).emit (.memWrite a (s.readReg d))).advance
  /-- A store sends one output value. -/
  | storePort (d : Reg) (a : Word) (hi : dataWriteAddress i s = some a) (ha : a.toNat = 255) :
      Effect i s (s.sendOutput (s.readReg d)).advance
  /-- A STORI takes IllegalAddress. -/
  | storeFault (d t : Reg) (hi : i = .stori d t) (ha : 256 ≤ (s.readReg t).toNat) :
      Effect i s (s.raiseIllegalAddress .store (s.readReg t))
  /-- HALT. -/
  | halt (hi : i = .halt) : Effect i s (s.halt .explicit)
  /-- A branch not taken. -/
  | fallThrough : Effect i s s.advance
  /-- A branch taken. -/
  | branch (addr : Addr8) : Effect i s (s.setPc (directTarget addr))
  /-- JMPR. -/
  | jump (t : Reg) (hi : i = .jmpr t) : Effect i s (s.setPc (s.readReg t))
  /-- JMPL. -/
  | link (d : Reg) (addr : Addr8) : Effect i s ((s.writeReg d s.nextPc).setPc (directTarget addr))

theorem direct_not_illegal (addr : Addr8) : ¬256 ≤ (directAddress addr).toNat := by
  have := zext16_lt addr
  simp only [directAddress]
  omega

/-- Every instruction answers a next state, by one of the effects above. -/
theorem exec_effect (i : Instr) (s : State) : ∃ t, exec i s = .next t ∧ Effect i s t := by
  cases i with
  | halt => exact ⟨_, rfl, .halt rfl⟩
  | add d a b => exact ⟨_, rfl, .reg d _⟩
  | sub d a b => exact ⟨_, rfl, .reg d _⟩
  | and d a b => exact ⟨_, rfl, .reg d _⟩
  | xor d a b => exact ⟨_, rfl, .reg d _⟩
  | shl d a b => exact ⟨_, rfl, .reg d _⟩
  | shr d a b => exact ⟨_, rfl, .reg d _⟩
  | loada d addr => exact ⟨_, rfl, .reg d _⟩
  | load d addr =>
    rcases loadWord_cases d (directAddress addr) s with ⟨h, e⟩ | ⟨v, rest, h, hp, e⟩ | ⟨h, hp, e⟩ | ⟨h, e⟩
    · exact ⟨_, e, .loadRam d _ rfl h⟩
    · exact ⟨_, e, .loadPort d _ v rest rfl h hp⟩
    · exact ⟨_, e, .wait _ rfl h hp⟩
    · exact absurd h (direct_not_illegal addr)
  | stor d addr =>
    rcases storeWord_cases (directAddress addr) (s.readReg d) s with ⟨h, e⟩ | ⟨h, e⟩ | ⟨h, e⟩
    · exact ⟨_, e, .storeRam d _ rfl h⟩
    · exact ⟨_, e, .storePort d _ rfl h⟩
    · exact absurd h (direct_not_illegal addr)
  | loadi d t =>
    rcases loadWord_cases d (indirectAddress s t) s with ⟨h, e⟩ | ⟨v, rest, h, hp, e⟩ | ⟨h, hp, e⟩ | ⟨h, e⟩
    · exact ⟨_, e, .loadRam d _ rfl h⟩
    · exact ⟨_, e, .loadPort d _ v rest rfl h hp⟩
    · exact ⟨_, e, .wait _ rfl h hp⟩
    · exact ⟨_, e, .loadFault d t rfl h⟩
  | stori d t =>
    rcases storeWord_cases (indirectAddress s t) (s.readReg d) s with ⟨h, e⟩ | ⟨h, e⟩ | ⟨h, e⟩
    · exact ⟨_, e, .storeRam d _ rfl h⟩
    · exact ⟨_, e, .storePort d _ rfl h⟩
    · exact ⟨_, e, .storeFault d t rfl h⟩
  | bzero d addr =>
    rcases branchIf_cases (decide (s.readReg d = 0#16)) addr s with ⟨-, e⟩ | ⟨-, e⟩
    · exact ⟨_, e, .branch addr⟩
    · exact ⟨_, e, .fallThrough⟩
  | bposi d addr =>
    rcases branchIf_cases (decide (0 < (s.readReg d).toNat)) addr s with ⟨-, e⟩ | ⟨-, e⟩
    · exact ⟨_, e, .branch addr⟩
    · exact ⟨_, e, .fallThrough⟩
  | jmpr t => exact ⟨_, rfl, .jump t rfl⟩
  | jmpl d addr => exact ⟨_, rfl, .link d addr⟩

/-- If an instruction answers a next state, the state is one of the effects above. -/
theorem effect_of_exec {i : Instr} {s t : State} (h : exec i s = .next t) : Effect i s t := by
  obtain ⟨u, hu, he⟩ := exec_effect i s
  cases hu.symm.trans h
  exact he

/-- An instruction that awaits input is one that changes nothing (R69). -/
theorem exec_of_awaitsInput {i : Instr} {s : State} (h : awaitsInput i s = true) : exec i s = .next s := by
  have key : ∀ d a, (decide (addrClass a = .port) && s.pending.isEmpty) = true →
      loadWord d a s = .next s := by
    intro d a hw
    simp only [Bool.and_eq_true, decide_eq_true_eq, List.isEmpty_iff] at hw
    rcases loadWord_cases d a s with ⟨h', e⟩ | ⟨v, rest, h', hp, e⟩ | ⟨h', hp, e⟩ | ⟨h', e⟩
    · simp [addrClass_ram h'] at hw
    · simp [hp] at hw
    · exact e
    · simp [addrClass_illegal h'] at hw
  cases i <;> simp only [awaitsInput, dataReadAddress, Bool.false_eq_true] at h
  · exact key _ _ h
  · exact key _ _ h

/-- Only a data read of the port with no input supplied awaits. -/
theorem awaitsInput_iff (i : Instr) (s : State) :
    awaitsInput i s = true ↔ ∃ a, dataReadAddress i s = some a ∧ a.toNat = 255 ∧ s.pending = [] := by
  unfold awaitsInput
  cases h : dataReadAddress i s with
  | none => simp
  | some a =>
    simp only [Bool.and_eq_true, decide_eq_true_eq, List.isEmpty_iff, Option.some.injEq, exists_eq_left']
    rcases addrClass_cases a with ⟨h', e⟩ | ⟨h', e⟩ | ⟨h', e⟩ <;> simp [e] <;> omega

/-! ### Fetch and step -/

/-- The state after the fetch of the word `w` at `s.pc`, with `s'` the state after the bus read. -/
abbrev fetched (s s' : State) (w : Word) : State := s'.emit (.fetch s.pc w (fieldsOf w))

/-- All a fetch can answer (R152, R153, R154). -/
theorem fetchDecode_cases (s : State) :
    (s.pc.toNat ≤ 254 ∧ fetchDecode s =
      .instr (decode (s.cell s.pc.toNat)) (fetched s s (s.cell s.pc.toNat))) ∨
    (∃ v rest, s.pc.toNat = 255 ∧ s.pending = v :: rest ∧ fetchDecode s =
      .instr (decode (enc16 (clamp16 v))) (fetched s (s.takeInput v rest) (enc16 (clamp16 v)))) ∨
    (s.pc.toNat = 255 ∧ s.pending = [] ∧ fetchDecode s = .waiting) ∨
    (256 ≤ s.pc.toNat ∧ fetchDecode s = .illegal) := by
  unfold fetchDecode
  rcases s.memRead_cases s.pc with ⟨h, e⟩ | ⟨v, rest, h, hp, e⟩ | ⟨h, hp, e⟩ | ⟨h, e⟩ <;> rw [e]
  · exact .inl ⟨h, rfl⟩
  · exact .inr (.inl ⟨v, rest, h, hp, rfl⟩)
  · exact .inr (.inr (.inl ⟨h, hp, rfl⟩))
  · exact .inr (.inr (.inr ⟨h, rfl⟩))

/-- A halted machine's step. -/
theorem step_halted {s : State} (h : s.run = .halted) : step s = .next s := by simp [step, cycle, h]

/-- A running machine's step, by what its fetch answers. -/
theorem step_running {s : State} (h : s.run = .running) :
    step s = match fetchDecode s with
      | .illegal => .next (s.raiseIllegalAddress .fetch s.pc)
      | .waiting => .next s
      | .instr i s' => if awaitsInput i s' then .next s else exec i s' := by
  cases s
  cases h
  rfl

/-- The ways a step can leave the state (R160). -/
inductive StepEffect (s : State) : State → Prop where
  /-- `Halted` is terminal. -/
  | halted (h : s.run = .halted) : StepEffect s s
  /-- The step waits for input. -/
  | waits (h : s.run = .running) (hw : stepWaits s = true) : StepEffect s s
  /-- The fetch takes IllegalAddress. -/
  | fetchFault (h : s.run = .running) (hpc : 256 ≤ s.pc.toNat) :
      StepEffect s (s.raiseIllegalAddress .fetch s.pc)
  /-- The instruction in the cell at `pc` executes. -/
  | fromRam (t : State) (h : s.run = .running) (hpc : s.pc.toNat ≤ 254)
      (ha : awaitsInput (decode (s.cell s.pc.toNat)) (fetched s s (s.cell s.pc.toNat)) = false)
      (he : Effect (decode (s.cell s.pc.toNat)) (fetched s s (s.cell s.pc.toNat)) t) : StepEffect s t
  /-- The instruction the input device supplies executes. -/
  | fromPort (t : State) (v : Int) (rest : List Int) (h : s.run = .running) (hpc : s.pc.toNat = 255)
      (hp : s.pending = v :: rest)
      (ha : awaitsInput (decode (enc16 (clamp16 v)))
        (fetched s (s.takeInput v rest) (enc16 (clamp16 v))) = false)
      (he : Effect (decode (enc16 (clamp16 v))) (fetched s (s.takeInput v rest) (enc16 (clamp16 v))) t) :
      StepEffect s t

/-- Every step answers a next state, by one of the effects above. -/
theorem step_effect (s : State) : ∃ t, step s = .next t ∧ StepEffect s t := by
  cases hrun : s.run with
  | halted => exact ⟨s, step_halted hrun, .halted hrun⟩
  | running =>
    have hs := step_running hrun
    rcases fetchDecode_cases s with ⟨h, e⟩ | ⟨v, rest, h, hp, e⟩ | ⟨h, hp, e⟩ | ⟨h, e⟩
    · rw [e] at hs
      by_cases ha : awaitsInput (decode (s.cell s.pc.toNat)) (fetched s s (s.cell s.pc.toNat)) = true
      · exact ⟨s, by simpa [ha] using hs, .waits hrun (by simp [stepWaits, hrun, e, ha])⟩
      · obtain ⟨t, ht, he⟩ := exec_effect (decode (s.cell s.pc.toNat)) (fetched s s (s.cell s.pc.toNat))
        exact ⟨t, by simpa [ha, ht] using hs, .fromRam t hrun h (by simpa using ha) he⟩
    · rw [e] at hs
      by_cases ha : awaitsInput (decode (enc16 (clamp16 v)))
          (fetched s (s.takeInput v rest) (enc16 (clamp16 v))) = true
      · exact ⟨s, by simpa [ha] using hs, .waits hrun (by simp [stepWaits, hrun, e, ha])⟩
      · obtain ⟨t, ht, he⟩ := exec_effect (decode (enc16 (clamp16 v)))
          (fetched s (s.takeInput v rest) (enc16 (clamp16 v)))
        exact ⟨t, by simpa [ha, ht] using hs, .fromPort t v rest hrun h hp (by simpa using ha) he⟩
    · rw [e] at hs
      exact ⟨s, hs, .waits hrun (by simp [stepWaits, hrun, e])⟩
    · rw [e] at hs
      exact ⟨_, hs, .fetchFault hrun h⟩

/-- If a step answers a next state, the state is one of the effects above. -/
theorem effect_of_step {s t : State} (h : step s = .next t) : StepEffect s t := by
  obtain ⟨u, hu, he⟩ := step_effect s
  cases hu.symm.trans h
  exact he

/-- One more step of the host's run: every step answers a next state, so the run goes on from it. -/
theorem core_run_succ {s t : State} (n : Nat) (h : step s = .next t) :
    Host.Core.run Sys2Proof.core (n + 1) s = Host.Core.run Sys2Proof.core n t := by
  have h' : Sys2Proof.core.step s = .next t := h
  simp only [Host.Core.run, h']

end Sys2Proof.Machine
end

