-- ==== Sys2Proof/Tests/Slice0.lean ====
section
/-! SUPPORT. Tests. Expected values come from spec/95_test_vectors.md (the ids I<n>, P<n>, T<n> and the parts it has)
or are worked out by hand from the encodings of spec/30_encoding.md R94; none is the model's own answer. -/

namespace Sys2Proof.Tests

open Sys2Proof Sys2Proof.Machine

/-! ### Helpers -/

/-- A running machine with a pc, some registers, some cells and the inputs to come; all else as at reset. -/
def machine (pc : Word) (regs : List (Reg × Word)) (cells : List (Nat × Word)) (inputs : List Int) : State :=
  let s := regs.foldl (fun s p => s.writeReg p.1 p.2) State.reset
  let s := cells.foldl (fun s p => s.setCell p.1 p.2) s
  { s with pc := pc, pending := inputs }

/-- The start state of a single-instruction vector: the word stands at 0x0020. -/
def single (w : Word) (regs : List (Reg × Word)) (cells : List (Nat × Word)) (inputs : List Int) : State :=
  machine 0x0020 regs ((0x20, w) :: cells) inputs

/-- The next state, where there is one. -/
def after (o : Host.Outcome State Fault Refusal) : State :=
  match o with
  | .next s => s
  | .fault _ => State.reset
  | .refused _ => State.reset

/-- The outcome is a next state of which `p` holds. -/
def goes (o : Host.Outcome State Fault Refusal) (p : State → Bool) : Bool :=
  match o with
  | .next s => p s
  | .fault _ => false
  | .refused _ => false

theorem step_answers (s : State) : step s = .next (after (step s)) := by
  obtain ⟨t, h, -⟩ := step_effect s
  rw [h]; rfl

/-! ### Well-formedness: each check refuses an ill-formed term -/

theorem test_regInRange_refuses_16 : regInRange 15 = true ∧ regInRange 16 = false := by decide
theorem test_addrInRange_refuses_256 : addrInRange 255 = true ∧ addrInRange 256 = false := by decide
theorem test_imageFits_refuses_240_words :
    imageFits (List.replicate 239 0) = true ∧ imageFits (List.replicate 240 0) = false := by
  simp only [imageFits, List.length_replicate]
  decide
theorem test_fileWhole_refuses_odd : fileWhole [0x71, 0xFF] = true ∧ fileWhole [0x71] = false := by decide
theorem test_wellFormed : Instr.wellFormed (.add 15 0 7) = true ∧ Instr.wellFormed (.jmpl 3 0xFF) = true := by decide

/-! ### Decoding: one word of every constructor, from spec/95_test_vectors.md parts 4 and 5 (D1) -/

theorem test_decode_halt : decode 0x0000#16 = .halt ∧ decode 0x0FFF#16 = .halt := by decide
theorem test_decode_add : decode 0x1312#16 = .add 3 1 2 := by decide
theorem test_decode_sub : decode 0x2ABC#16 = .sub 10 11 12 := by decide
theorem test_decode_and : decode 0x3524#16 = .and 5 2 4 := by decide
theorem test_decode_xor : decode 0x4312#16 = .xor 3 1 2 := by decide
theorem test_decode_shl : decode 0x5114#16 = .shl 1 1 4 := by decide
theorem test_decode_shr : decode 0x6224#16 = .shr 2 2 4 := by decide
theorem test_decode_loada : decode 0x7A55#16 = .loada 10 0x55 := by decide
theorem test_decode_load : decode 0x8340#16 = .load 3 0x40 := by decide
theorem test_decode_stor : decode 0x9320#16 = .stor 3 0x20 := by decide
theorem test_decode_loadi : decode 0xA3F1#16 = .loadi 3 1 := by decide
theorem test_decode_stori : decode 0xB2A1#16 = .stori 2 1 := by decide
theorem test_decode_bzero : decode 0xC117#16 = .bzero 1 0x17 := by decide
theorem test_decode_bposi : decode 0xD214#16 = .bposi 2 0x14 := by decide
theorem test_decode_jmpr : decode 0xEAB1#16 = .jmpr 1 := by decide
theorem test_decode_jmpl : decode 0xFFFF#16 = .jmpl 15 0xFF := by decide

/-- The canonical words of R94, bit by bit: opcode, d, s, t. -/
theorem test_encode :
    encode (.sub 10 11 12) = 0b0010101010111100#16 ∧ encode (.stori 2 1) = 0b1011001000000001#16 ∧
    encode (.jmpr 14) = 0b1110000000001110#16 ∧ encode (.bposi 2 0x14) = 0b1101001000010100#16 := by decide

/-- The opcode table's bits are those of the word; no row is longer than 16 bits (R90). -/
theorem test_decodeTableWord :
    decodeTableWord 16 0xF120 = some (.jmpl 1 0x20) ∧ decodeTableWord 32 0xF120 = none := by decide

/-- From reset the very next step runs the placed instruction: `JMPR x0` (word 0xE000) goes to 0. -/
theorem test_withFetchWord :
    goes (step (State.reset.withFetchWord 16 0xE000)) (fun t => t.pc == 0 && t.run == .running) = true := by decide

/-! ### The ALU (spec/95_test_vectors.md part 2) -/

theorem test_alu_add : aluAdd 0x00FF 0x00FF = 0x01FE ∧ aluAdd 0xFFFF 0x0001 = 0x0000 := by decide
theorem test_alu_sub : aluSub 0x1234 0x4321 = 0xCF13 ∧ aluSub 0x0000 0x8000 = 0x8000 := by decide
theorem test_alu_shifts : aluShiftl 0x1234 0x0011 = 0x2468 ∧ aluShiftr 0x8000 0x0001 = 0x4000 := by decide

/-! ### One step of each instruction (spec/95_test_vectors.md part 5) -/

/-- I2: the sum wraps; the destination is also a source. -/
theorem test_add_I2 : goes (step (single 0x1112 [(1, 0xFFFF), (2, 1)] [] []))
    (fun t => t.readReg 1 == 0 && t.readReg 2 == 1 && t.pc == 0x21) = true := by decide

/-- I3: register 0 ignores the write. -/
theorem test_add_I3 : goes (step (single 0x1012 [(1, 5), (2, 6)] [] []))
    (fun t => t.readReg 0 == 0 && t.readReg 1 == 5 && t.pc == 0x21) = true := by decide

/-- I9: the minuend is `x[s]`. -/
theorem test_sub_I9 : goes (step (single 0x2312 [(1, 0x1234), (2, 0x4321)] [] []))
    (fun t => t.readReg 3 == 0xCF13 && t.pc == 0x21) = true := by decide

/-- I11. -/
theorem test_and_I11 : goes (step (single 0x3312 [(1, 0xF0F0), (2, 0xFF00)] [] []))
    (fun t => t.readReg 3 == 0xF000 && t.pc == 0x21) = true := by decide

/-- I14. -/
theorem test_xor_I14 : goes (step (single 0x4312 [(1, 0xF0F0), (2, 0xFF00)] [] []))
    (fun t => t.readReg 3 == 0x0FF0 && t.pc == 0x21) = true := by decide

/-- I20: the amount 17 acts as 1. -/
theorem test_shl_I20 : goes (step (single 0x5312 [(1, 0x1234), (2, 0x11)] [] []))
    (fun t => t.readReg 3 == 0x2468 && t.pc == 0x21) = true := by decide

/-- I28: value and amount from one register; the shift is logical. -/
theorem test_shr_I28 : goes (step (single 0x6111 [(1, 0x8004)] [] []))
    (fun t => t.readReg 1 == 0x0800 && t.pc == 0x21) = true := by decide

/-- I29: no sign extension, no device call. -/
theorem test_loada_I29 : goes (step (single 0x73FF [] [] [7]))
    (fun t => t.readReg 3 == 0x00FF && t.pc == 0x21 && t.consumed == []) = true := by decide

/-- I32. -/
theorem test_load_I32 : goes (step (single 0x8340 [] [(0x40, 0xBEEF)] []))
    (fun t => t.readReg 3 == 0xBEEF && t.pc == 0x21) = true := by decide

/-- I33b: one input is consumed and clamped. -/
theorem test_load_I33b : goes (step (single 0x83FF [] [] [70000, 1]))
    (fun t => t.readReg 3 == 0x7FFF && t.consumed == [70000] && t.pending == [1]) = true := by decide

/-- I38: both bytes land in cell 0x40 and nowhere else. -/
theorem test_stor_I38 : goes (step (single 0x9340 [(3, 0xBEEF)] [] []))
    (fun t => t.cell 0x40 == 0xBEEF && t.cell 0x3F == 0 && t.cell 0x41 == 0 && t.pc == 0x21) = true := by decide

/-- I36: the output is signed, and no cell changes. -/
theorem test_stor_I36 : goes (step (single 0x93FF [(3, 0x8000)] [] []))
    (fun t => t.output == [-32768] && t.mem == (single 0x93FF [] [] []).mem && t.pc == 0x21) = true := by decide

/-- I45: the address is read before the destination is written. -/
theorem test_loadi_I45 : goes (step (single 0xA101 [(1, 0x50)] [(0x50, 0x2A)] []))
    (fun t => t.readReg 1 == 0x2A && t.pc == 0x21) = true := by decide

/-- I43: the address fault writes no register and no pc. -/
theorem test_loadi_I43 : goes (step (single 0xA301 [(1, 0x100), (3, 0x77)] [] []))
    (fun t => t.run == .halted && t.haltCause == .addressFault .load 0x100 && t.readReg 3 == 0x77 && t.pc == 0x20) =
      true := by decide

/-- I47: `x[t]` is the address, `x[d]` the value. -/
theorem test_stori_I47 : goes (step (single 0xB201 [(1, 0x50), (2, 0x2A)] [] []))
    (fun t => t.cell 0x50 == 0x2A && t.cell 0x2A == 0 && t.pc == 0x21) = true := by decide

/-- I54. -/
theorem test_stori_I54 : goes (step (single 0xB201 [(1, 0xFFFF), (2, 1)] [] []))
    (fun t => t.haltCause == .addressFault .store 0xFFFF && t.output == [] && t.pc == 0x20) = true := by decide

/-- I55b: HALT ignores its low bits and keeps its pc. -/
theorem test_halt_I55b : goes (step (single 0x0FFF [(1, 5)] [] []))
    (fun t => t.run == .halted && t.haltCause == .explicit && t.pc == 0x20 && t.readReg 1 == 5) = true := by decide

/-- I57, I58: the branch is taken on zero only. -/
theorem test_bzero_I57_I58 :
    goes (step (single 0xC140 [] [] [])) (fun t => t.pc == 0x40) = true ∧
    goes (step (single 0xC140 [(1, 5)] [] [])) (fun t => t.pc == 0x21) = true := by decide

/-- I60, I61: the test is unsigned (D15). -/
theorem test_bposi_I60_I61 :
    goes (step (single 0xD140 [] [] [])) (fun t => t.pc == 0x21) = true ∧
    goes (step (single 0xD140 [(1, 0x8000)] [] [])) (fun t => t.pc == 0x40) = true := by decide

/-- I63: fields d and s are ignored (D4). -/
theorem test_jmpr_I63 : goes (step (single 0xEAB1 [(1, 0x30), (10, 0x44), (11, 0x55)] [] []))
    (fun t => t.pc == 0x30) = true := by decide

/-- I62b: an illegal target is reached, still running. -/
theorem test_jmpr_I62b : goes (step (single 0xE001 [(1, 0x1234)] [] []))
    (fun t => t.pc == 0x1234 && t.run == .running) = true := by decide

/-- I64: the source's scenario 3. -/
theorem test_jmpl_I64 : goes (step (machine 0x15 [] [(0x15, 0xF120)] []))
    (fun t => t.readReg 1 == 0x16 && t.pc == 0x20) = true := by decide

/-! ### Fetch, reset and the image (spec/95_test_vectors.md parts 5 and 6) -/

/-- I69. -/
theorem test_fetch_I69 : goes (step (machine 0xFFFF [] [] []))
    (fun t => t.haltCause == .addressFault .fetch 0xFFFF && t.pc == 0xFFFF) = true := by decide

/-- I70: the input 31317 is `LOADA x10, 0x55` (D2). -/
theorem test_fetch_I70 : goes (step (machine 0xFF [] [] [31317]))
    (fun t => t.readReg 10 == 0x55 && t.pc == 0x100 && t.consumed == [31317]) = true := by decide

/-- I72: no input, no step. -/
theorem test_fetch_I72 : step (machine 0xFF [] [] []) = .next (machine 0xFF [] [] []) := by rfl

/-- I73: a cell that nothing wrote is HALT. -/
theorem test_fetch_I73 : goes (step (machine 0 [] [] [])) (fun t => t.haltCause == .explicit && t.pc == 0) = true := by
  decide

/-- A LOADA and its fetch show one event, with the fields of the word (R161). -/
theorem test_trace_fetch : goes (step (single 0x73FF [] [] []))
    (fun t => t.trace == [.fetch 0x20 0x73FF ⟨7, 3, 15, 15, 0xFF⟩]) = true := by decide

/-- The status codes of D7. -/
theorem test_cause_codes :
    HaltCause.none.code = 0 ∧ HaltCause.explicit.code = 1 ∧ (HaltCause.addressFault .load 256).code = 2 := by decide

theorem test_fileWords : fileWords [0x71, 0xFF, 0x12, 0x34] = some [0x71FF, 0x1234] := by decide

/-- The kinds of stop of R257: I55 is final, I50 a fault, I33c stuck. -/
theorem test_stopKind :
    stopKind (after (step (single 0x0000 [] [] []))) = some .final ∧
    stopKind (after (step (single 0xB201 [(1, 0x100)] [] []))) = some .fault ∧
    stopKind (single 0x83FF [] [] []) = some .stuck ∧ stopKind (single 0x8340 [] [] []) = none := by decide

/-! ### Witnesses: for every statement with hypotheses, values that meet them, one theorem or conjunct for each clause,
at the ends of its range -/

/-- `LOADI x3, (x1)` as an input value: the word 0xA301 read as signed. -/
def loadiInput : Int := -23807

theorem witness_LogicIsBitwise : 15 < 16 := by decide

theorem witness_ShiftsAreLogicalModuloSixteen :
    (0x0010#16).toNat % 16 = 0 ∧ (0xFFFF#16).toNat % 16 = 15 ∧ 15 < 16 := by decide

theorem witness_RegisterWriteStoresOrIsIgnored : (0 : Reg) = 0 ∧ (machine 0x20 [] [] [7]).pending = 7 :: [] := by decide

theorem witness_BusReadReturnsCellOrClampedInput :
    (0x00FE#16).toNat ≤ 254 ∧ (0x00FF#16).toNat = 255 ∧ (machine 0x20 [] [] [7]).pending = 7 :: [] := by decide

theorem witness_RamWriteRoundTrips : (0x00FE#16).toNat ≤ 254 ∧ 253 ≠ (0x00FE#16).toNat := by decide

theorem witness_IoConversionsAreTwosComplement :
    ((-32768 : Int) ≤ -32768 ∧ (-32768 : Int) ≤ 32767) ∧ (-32768 : Int) ≤ 32767 ∧ (32767 : Int) ≤ 32767 := by decide

theorem witness_PortIsTheOnlySideEffect :
    (0x00FE#16).toNat ≤ 254 ∧ 256 ≤ (0x0100#16).toNat ∧ (machine 0x20 [] [] [7, 8]).pending = 7 :: 8 :: [] := by decide

theorem witness_AluInstructionsWriteOnlyTheirDestination :
    (Instr.shr 0 0 0, aluShiftr) ∈ [(Instr.add 0 0 0, aluAdd), (.sub 0 0 0, aluSub), (.and 0 0 0, aluAnd),
      (.xor 0 0 0, aluXor), (.shl 0 0 0, aluShiftl), (.shr 0 0 0, aluShiftr)] := by simp

theorem witness_LoadsFromRamReadTheCell :
    (directAddress 0xFE).toNat ≤ 254 ∧ (indirectAddress (machine 0x20 [(1, 0xFE)] [] []) 1).toNat ≤ 254 := by decide

theorem witness_LoadsFromPortTakeOneInput :
    (machine 0x20 [(1, 0xFF)] [] [7]).pending = 7 :: [] ∧ (directAddress 0xFF).toNat = 255 ∧
    (indirectAddress (machine 0x20 [(1, 0xFF)] [] [7]) 1).toNat = 255 := by decide

theorem witness_LoadsFromPortWaitForInput :
    (machine 0x20 [(1, 0xFF)] [] []).pending = [] ∧ (directAddress 0xFF).toNat = 255 ∧
    (indirectAddress (machine 0x20 [(1, 0xFF)] [] []) 1).toNat = 255 := by decide

theorem witness_StoresToRamWriteTheCell :
    (0x00FE#16).toNat ≤ 254 ∧ directAddress 0xFE = 0x00FE#16 ∧
    indirectAddress (machine 0x20 [(1, 0xFE)] [] []) 1 = 0x00FE#16 := by decide

theorem witness_StoresToPortSendTheValue :
    (directAddress 0xFF).toNat = 255 ∧ (indirectAddress (machine 0x20 [(1, 0xFF)] [] []) 1).toNat = 255 := by decide

theorem witness_IndirectAccessBeyondThePortTraps :
    256 ≤ (indirectAddress (machine 0x20 [(1, 0x100)] [] []) 1).toNat := by decide

theorem witness_BzeroBranchesOnZero : (0 : Reg) = 0 := rfl

theorem witness_BposiBranchesOnNonzero :
    32768 ≤ ((machine 0x20 [(1, 0x8000)] [] []).readReg 1).toNat ∧ (0 : Reg) = 0 := by decide

theorem witness_JmprReturnsFromJmpl : (1 : Reg) ≠ 0 := by decide

/-- One state whose instruction completes and one whose instruction waits. -/
theorem witness_StepRunsTheDecodedInstruction :
    ((machine 0xFE [] [(0xFE, 0x1112)] []).run = .running ∧ (machine 0xFE [] [(0xFE, 0x1112)] []).pc.toNat ≤ 254 ∧
      decode ((machine 0xFE [] [(0xFE, 0x1112)] []).cell 0xFE) = .add 1 1 2 ∧
      awaitsInput (.add 1 1 2) (machine 0xFE [] [(0xFE, 0x1112)] []) = false) ∧
    decode ((machine 0xFE [] [(0xFE, 0x81FF)] []).cell 0xFE) = .load 1 0xFF ∧
      awaitsInput (.load 1 0xFF) (machine 0xFE [] [(0xFE, 0x81FF)] []) = true := by decide

theorem witness_FetchReadsTheCellAtThePc :
    ((machine 0xFE [] [] []).run = .running ∧ (machine 0xFE [] [] []).pc.toNat ≤ 254) ∧
    (machine 0x100 [] [] []).run = .running ∧ 256 ≤ (machine 0x100 [] [] []).pc.toNat := by decide

theorem witness_FetchFromPortExecutesTheInput :
    (machine 0xFF [] [] [31317]).run = .running ∧ (machine 0xFF [] [] [31317]).pc.toNat = 255 ∧
    (machine 0xFF [] [] [31317]).pending = 31317 :: [] := by decide

/-- `LOAD x1, 0xFF` as an input value: the word 0x81FF read as signed. -/
def loadInput : Int := -32257

/-- The waiting branch: the only value supplied is a load from the port, which needs a second one (log 4). -/
theorem witness_FetchFromPortExecutesTheInput_waits :
    (machine 0xFF [] [] [loadInput]).run = .running ∧ (machine 0xFF [] [] [loadInput]).pc.toNat = 255 ∧
    (machine 0xFF [] [] [loadInput]).pending = loadInput :: [] ∧ enc16 (clamp16 loadInput) = 0x81FF#16 ∧
    awaitsInput (decode 0x81FF#16) { machine 0xFF [] [] [] with consumed := [loadInput] } = true := by decide

theorem witness_FetchBeyondThePortTraps :
    (machine 0x100 [] [] []).run = .running ∧ 256 ≤ (machine 0x100 [] [] []).pc.toNat := by decide

theorem witness_OnlyAWaitingStepChangesNothing :
    (single 0x83FF [] [] []).run = .running ∧ stepWaits (single 0x83FF [] [] []) = true ∧
    stepWaits (single 0x83FF [] [] [7]) = false ∧ stepWaits (machine 0xFF [] [] [loadInput]) = true := by decide

/-- I58c, a branch to itself: the step does not wait, and changes the trace alone (log 6). -/
theorem witness_OnlyAWaitingStepChangesNothing_traceOnly :
    stepWaits (single 0xC120 [] [] []) = false ∧
    goes (step (single 0xC120 [] [] [])) (fun t => { t with trace := [] } == single 0xC120 [] [] [] &&
      t.trace.length == 1) = true := by decide

theorem witness_HaltedIsTerminal_clause1 : (after (step (single 0 [] [] []))).run = .halted := by decide

/-- Both disjuncts of the second clause: HALT and an address fault. -/
theorem witness_HaltedIsTerminal_clause2 :
    (∃ t, step (single 0 [] [] []) = .next t ∧ t.run = .halted) ∧
    ∃ t, step (machine 0x100 [] [] []) = .next t ∧ t.run = .halted :=
  ⟨⟨_, step_answers _, by decide⟩, _, step_answers _, by decide⟩

/-- The four ways to halt, and a step from a halted state. -/
theorem witness_RunHaltsInExactlyTwoWays :
    (∃ t, step (single 0 [] [] []) = .next t ∧ t.run = .halted) ∧
    (∃ t, step (machine 0x100 [] [] []) = .next t ∧ t.run = .halted) ∧
    (∃ t, step (single 0xA301 [(1, 0x100)] [] []) = .next t ∧ t.run = .halted) ∧
    (∃ t, step (single 0xB201 [(1, 0x100)] [] []) = .next t ∧ t.run = .halted) ∧
    ∃ t, step { State.reset with run := .halted } = .next t :=
  ⟨⟨_, step_answers _, by decide⟩, ⟨_, step_answers _, by decide⟩, ⟨_, step_answers _, by decide⟩,
    ⟨_, step_answers _, by decide⟩, _, step_answers _⟩

/-- A fault of an instruction in RAM, and one of an instruction that the port supplied. -/
theorem witness_AddressFaultsArePrecise :
    (∃ t, step (single 0xA301 [(1, 0x100)] [] []) = .next t ∧ t.run = .halted ∧
      t.haltCause = .addressFault .load 0x100 ∧ (single 0xA301 [(1, 0x100)] [] []).pc.toNat ≠ 255) ∧
    ∃ t, step (machine 0xFF [(1, 0x100)] [] [loadiInput]) = .next t ∧ t.run = .halted ∧
      t.haltCause = .addressFault .load 0x100 :=
  ⟨⟨_, step_answers _, by decide⟩, _, step_answers _, by decide⟩

theorem witness_StepKeepsMemoryCanonical :
    MemoryInv (single 0x9340 [(3, 0xBEEF)] [] []) ∧ ∃ t, step (single 0x9340 [(3, 0xBEEF)] [] []) = .next t :=
  ⟨by unfold MemoryInv; decide, _, step_answers _⟩

theorem witness_StepKeepsStatusConsistent :
    StatusInv (single 0 [] [] []) ∧ ∃ t, step (single 0 [] [] []) = .next t :=
  ⟨⟨by decide, by intro k a h; simp [single, machine, State.reset, State.setCell] at h⟩, _, step_answers _⟩

theorem witness_StepKeepsTraceAndDevicesInAgreement :
    DeviceInv (single 0x93FF [(3, 0x8000)] [] []) ∧ ∃ t, step (single 0x93FF [(3, 0x8000)] [] []) = .next t :=
  ⟨by unfold DeviceInv; decide, _, step_answers _⟩

/-- The bytes of cell 0x40 are those at 128 and 129. -/
theorem witness_OnlyStoresChangeMemory :
    ∃ t, step (single 0x9340 [(3, 0xBEEF)] [] []) = .next t ∧
      t.mem.readByte 128 ≠ (single 0x9340 [(3, 0xBEEF)] [] []).mem.readByte 128 :=
  ⟨_, step_answers _, by decide⟩

theorem witness_DevicesAreTouchedOnlyThroughThePort :
    ∃ t, step (single 0x93FF [(3, 0x8000)] [] []) = .next t ∧ ¬SameDevices (single 0x93FF [(3, 0x8000)] [] []) t :=
  ⟨_, step_answers _, by unfold SameDevices; decide⟩

/-- The two ways out: JMPR, and going on from 255. -/
theorem witness_PcLeavesTheAddressSpaceOnlyByJmprOrFallingOff :
    (∃ t, (single 0xE001 [(1, 0x100)] [] []).pc.toNat ≤ 255 ∧ step (single 0xE001 [(1, 0x100)] [] []) = .next t ∧
      256 ≤ t.pc.toNat) ∧
    ∃ t, (machine 0xFF [] [] [31317]).pc.toNat ≤ 255 ∧ step (machine 0xFF [] [] [31317]) = .next t ∧ 256 ≤ t.pc.toNat :=
  ⟨⟨_, by decide, step_answers _, by decide⟩, _, by decide, step_answers _, by decide⟩

theorem witness_OneWritePerStep : ∃ t, step (single 0x1112 [(1, 1), (2, 2)] [] []) = .next t := ⟨_, step_answers _⟩

theorem witness_StoreIsSeenByTheNextFetch :
    (machine 0xFD [] [(0xFD, 0x93FE)] []).run = .running ∧ (machine 0xFD [] [(0xFD, 0x93FE)] []).pc.toNat + 1 ≤ 254 ∧
    (0xFE#8).toNat = (machine 0xFD [] [(0xFD, 0x93FE)] []).pc.toNat + 1 ∧
    decode ((machine 0xFD [] [(0xFD, 0x93FE)] []).cell 0xFD) = .stor 3 0xFE := by decide

theorem witness_LaunchPlacesTheImage :
    (List.replicate 239 (0 : Word)).length ≤ 239 ∧ 239 < (List.replicate 240 (0 : Word)).length := by
  simp only [List.length_replicate]
  decide

end Sys2Proof.Tests
end

/-! The state family (spec/10_state.md): register 0 and register writes (R22, R23), and the run state (R30). -/

namespace Sys2Proof.Machine

/-! ### Register writes, as the frames of Safety.lean say them -/

/-- A register write gives its register the value and keeps the others (R23). -/
theorem regGets_writeReg (s : State) (d : Reg) (v : Word) : RegGets d v s (s.writeReg d v) :=
  ⟨s.readReg_writeReg_self d v, fun _ h => s.readReg_writeReg_ne v h⟩

theorem sameMemory_writeReg (s : State) (d : Reg) (v : Word) : SameMemory s (s.writeReg d v) := by
  simp [SameMemory]

theorem sameStatus_writeReg (s : State) (d : Reg) (v : Word) : SameStatus s (s.writeReg d v) := by
  simp [SameStatus]

theorem sameDevices_writeReg (s : State) (d : Reg) (v : Word) : SameDevices s (s.writeReg d v) := by
  simp [SameDevices]

theorem emitted_nil_writeReg (s : State) (d : Reg) (v : Word) : Emitted [] s (s.writeReg d v) := by
  simp [Emitted]

/-! ### Loads and stores, by the class of the address -/

theorem loadWord_ram (d : Reg) {a : Word} (s : State) (h : a.toNat ≤ 254) :
    loadWord d a s = .next ((s.emit (.memRead a (s.cell a.toNat))).writeReg d (s.cell a.toNat)).advance := by
  simp [loadWord, s.dataRead_ram h]

theorem loadWord_port (d : Reg) {a : Word} {s : State} {v : Int} {rest : List Int} (h : a.toNat = 255)
    (hp : s.pending = v :: rest) :
    loadWord d a s = .next ((s.takeInput v rest).writeReg d (enc16 (clamp16 v))).advance := by
  simp [loadWord, s.dataRead_eq_memRead h.ge, State.memRead_port h hp]

theorem loadWord_waiting (d : Reg) {a : Word} {s : State} (h : a.toNat = 255) (hp : s.pending = []) :
    loadWord d a s = .next s := by
  simp [loadWord, s.dataRead_eq_memRead h.ge, State.memRead_waiting h hp]

theorem loadWord_illegal (d : Reg) {a : Word} (s : State) (h : 256 ≤ a.toNat) :
    loadWord d a s = .next (s.raiseIllegalAddress .load a) := by
  have h' : 255 ≤ a.toNat := by omega
  simp [loadWord, s.dataRead_eq_memRead h', s.memRead_illegal h]

theorem storeWord_ram {a : Word} (v : Word) (s : State) (h : a.toNat ≤ 254) :
    storeWord a v s = .next ((s.setCell a.toNat v).emit (.memWrite a v)).advance := by
  simp [storeWord, s.memWrite_ram v h]

theorem storeWord_port {a : Word} (v : Word) (s : State) (h : a.toNat = 255) :
    storeWord a v s = .next (s.sendOutput v).advance := by
  simp [storeWord, s.memWrite_port v h]

theorem storeWord_illegal {a : Word} (v : Word) (s : State) (h : 256 ≤ a.toNat) :
    storeWord a v s = .next (s.raiseIllegalAddress .store a) := by
  simp [storeWord, s.memWrite_illegal v h]

/-- A load into register 0 from the port still takes its input, and writes no register (R23). -/
theorem load_zero_port_takes_input {s : State} {x : Int} {rest : List Int} (hp : s.pending = x :: rest) :
    exec (.load 0 0xFF) s = .next (s.takeInput x rest).advance := by
  have e : exec (.load 0 0xFF) s = loadWord 0#4 (directAddress 0xFF) s := rfl
  rw [e, loadWord_port _ (by decide) hp, State.writeReg_zero]

/-! ### Which instructions halt (R30) -/

/-- The instruction halts the machine when it executes here: HALT, or an indirect access to an illegal address. -/
def HaltsAt (i : Instr) (s : State) : Prop :=
  i = .halt ∨ (∃ d r, i = .loadi d r ∧ 256 ≤ (s.readReg r).toNat) ∨
    ∃ d r, i = .stori d r ∧ 256 ≤ (s.readReg r).toNat

/-- An instruction that does not halt keeps the run state. -/
theorem Effect.run_eq_or_haltsAt {i : Instr} {s t : State} (h : Effect i s t) :
    t.run = s.run ∨ HaltsAt i s := by
  cases h with
  | halt hi => exact .inr (.inl hi)
  | loadFault d r hi ha => exact .inr (.inr (.inl ⟨d, r, hi, ha⟩))
  | storeFault d r hi ha => exact .inr (.inr (.inr ⟨d, r, hi, ha⟩))
  | reg | loadRam | loadPort | wait | storeRam | storePort | fallThrough | branch | jump | link =>
    exact .inl (by simp)

/-- An instruction that halts leaves the machine halted. -/
theorem HaltsAt.run_of_exec {i : Instr} {s t : State} (hi : HaltsAt i s) (h : exec i s = .next t) :
    t.run = .halted := by
  rcases hi with rfl | ⟨d, r, rfl, ha⟩ | ⟨d, r, rfl, ha⟩
  · cases h; rfl
  · cases (loadWord_illegal d s ha).symm.trans h; rfl
  · cases (storeWord_illegal (s.readReg d) s ha).symm.trans h; rfl

theorem exec_run_halted_iff {i : Instr} {s t : State} (hs : s.run = .running) (h : exec i s = .next t) :
    t.run = .halted ↔ HaltsAt i s := by
  refine ⟨fun ht => ?_, fun hi => hi.run_of_exec h⟩
  rcases (effect_of_exec h).run_eq_or_haltsAt with he | hi
  · simp [he, hs] at ht
  · exact hi

/-- A fetch that answers an instruction was made at a bus address, and keeps the run state. -/
theorem pc_le_and_run_of_fetchDecode_instr {s s' : State} {i : Instr} (h : fetchDecode s = .instr i s') :
    s.pc.toNat ≤ 255 ∧ s'.run = s.run := by
  rcases fetchDecode_cases s with ⟨hpc, e⟩ | ⟨v, rest, hpc, -, e⟩ | ⟨-, -, e⟩ | ⟨-, e⟩ <;> cases e.symm.trans h
  · exact ⟨by omega, rfl⟩
  · exact ⟨hpc.le, rfl⟩

theorem pc_of_fetchDecode_waiting {s : State} (h : fetchDecode s = .waiting) : s.pc.toNat = 255 := by
  rcases fetchDecode_cases s with ⟨-, e⟩ | ⟨_, _, -, -, e⟩ | ⟨hpc, -, e⟩ | ⟨-, e⟩ <;> cases e.symm.trans h
  exact hpc

theorem pc_of_fetchDecode_illegal {s : State} (h : fetchDecode s = .illegal) : 256 ≤ s.pc.toNat := by
  rcases fetchDecode_cases s with ⟨-, e⟩ | ⟨_, _, -, -, e⟩ | ⟨-, -, e⟩ | ⟨hpc, e⟩ <;> cases e.symm.trans h
  exact hpc

/-- A running machine's step halts exactly if the fetched instruction does. A step that waits for the instruction's
input is no exception: such an instruction would change nothing (R69). -/
theorem step_run_halted_iff_of_instr {s s' t : State} {i : Instr} (hs : s.run = .running) (h : step s = .next t)
    (hf : fetchDecode s = .instr i s') : t.run = .halted ↔ HaltsAt i s' := by
  have hs' : s'.run = .running := (pc_le_and_run_of_fetchDecode_instr hf).2.trans hs
  rw [step_running hs, hf] at h
  by_cases ha : awaitsInput i s' = true
  · have ht : s = t := by simpa [ha] using h
    rw [← exec_run_halted_iff hs' (exec_of_awaitsInput ha), ← ht, hs, hs']
  · exact exec_run_halted_iff hs' (by simpa [ha] using h)

/-- A running machine's step halts exactly by a fetch beyond the port or by an instruction that halts (R30). -/
theorem step_run_halted_iff {s t : State} (hs : s.run = .running) (h : step s = .next t) :
    t.run = .halted ↔ 256 ≤ s.pc.toNat ∨ ∃ i s', fetchDecode s = .instr i s' ∧ HaltsAt i s' := by
  cases hf : fetchDecode s with
  | instr i s' =>
    have hpc : ¬256 ≤ s.pc.toNat := by
      have := (pc_le_and_run_of_fetchDecode_instr hf).1
      omega
    simp [step_run_halted_iff_of_instr hs h hf, hpc]
  | waiting =>
    rw [step_running hs, hf] at h
    cases h
    simp [hs, pc_of_fetchDecode_waiting hf]
  | illegal =>
    rw [step_running hs, hf] at h
    cases h
    simp [pc_of_fetchDecode_illegal hf]

/-! ### No instruction reads the run state (R30) -/

/-- The state with another run state. -/
def State.setRun (s : State) (r : RunState) : State := { s with run := r }

@[simp] theorem State.setRun_eq_self_iff (s : State) (r : RunState) : s.setRun r = s ↔ r = s.run := by
  refine ⟨fun h => congrArg State.run h, ?_⟩
  rintro rfl
  rfl

@[simp] theorem State.setRun_setRun (s : State) (r q : RunState) : (s.setRun r).setRun q = s.setRun q := rfl
@[simp] theorem State.setRun_pending (s : State) (r : RunState) : (s.setRun r).pending = s.pending := rfl
@[simp] theorem State.setRun_nextPc (s : State) (r : RunState) : (s.setRun r).nextPc = s.nextPc := rfl
@[simp] theorem State.setRun_cell (s : State) (r : RunState) (a : Nat) : (s.setRun r).cell a = s.cell a := rfl
@[simp] theorem State.setRun_readReg (s : State) (r : RunState) (i : Reg) :
    (s.setRun r).readReg i = s.readReg i := rfl
@[simp] theorem State.setRun_setPc (s : State) (r : RunState) (v : Word) :
    (s.setRun r).setPc v = (s.setPc v).setRun r := rfl
@[simp] theorem State.setRun_advance (s : State) (r : RunState) :
    (s.setRun r).advance = s.advance.setRun r := rfl
@[simp] theorem State.setRun_emit (s : State) (r : RunState) (e : Event) :
    (s.setRun r).emit e = (s.emit e).setRun r := rfl
@[simp] theorem State.setRun_setCell (s : State) (r : RunState) (a : Nat) (v : Word) :
    (s.setRun r).setCell a v = (s.setCell a v).setRun r := rfl
@[simp] theorem State.setRun_takeInput (s : State) (r : RunState) (v : Int) (rest : List Int) :
    (s.setRun r).takeInput v rest = (s.takeInput v rest).setRun r := rfl
@[simp] theorem State.setRun_sendOutput (s : State) (r : RunState) (w : Word) :
    (s.setRun r).sendOutput w = (s.sendOutput w).setRun r := rfl
@[simp] theorem State.setRun_halt (s : State) (r : RunState) (c : HaltCause) :
    (s.setRun r).halt c = s.halt c := rfl
@[simp] theorem State.setRun_raiseIllegalAddress (s : State) (r : RunState) (k : AccessKind) (a : Word) :
    (s.setRun r).raiseIllegalAddress k a = s.raiseIllegalAddress k a := rfl
@[simp] theorem State.setRun_writeReg (s : State) (r : RunState) (d : Reg) (v : Word) :
    (s.setRun r).writeReg d v = (s.writeReg d v).setRun r := by
  unfold State.writeReg; split <;> rfl

/-- Both outcomes are next states, and they agree in everything but the run state. -/
def AgreeButRun (o p : Host.Outcome State Fault Refusal) : Prop :=
  ∃ t u, o = .next t ∧ p = .next u ∧ u.setRun t.run = t

theorem agreeButRun_next {t u : State} (h : u.setRun t.run = t) : AgreeButRun (.next t) (.next u) :=
  ⟨t, u, rfl, rfl, h⟩

theorem agreeButRun_aluOp (f : Word → Word → Word) (d a b : Reg) (s : State) (r : RunState) :
    AgreeButRun (aluOp f d a b s) (aluOp f d a b (s.setRun r)) :=
  agreeButRun_next (by simp)

theorem agreeButRun_loadWord (d : Reg) (a : Word) (s : State) (r : RunState) :
    AgreeButRun (loadWord d a s) (loadWord d a (s.setRun r)) := by
  rcases loadWord_cases d a s with ⟨h, e⟩ | ⟨v, rest, h, hp, e⟩ | ⟨h, hp, e⟩ | ⟨h, e⟩
  · exact ⟨_, _, e, loadWord_ram d _ h, by simp⟩
  · exact ⟨_, _, e, loadWord_port (s := s.setRun r) d h hp, by simp⟩
  · exact ⟨_, _, e, loadWord_waiting (s := s.setRun r) d h hp, by simp⟩
  · exact ⟨_, _, e, loadWord_illegal d _ h, by simp⟩

theorem agreeButRun_storeWord (a v : Word) (s : State) (r : RunState) :
    AgreeButRun (storeWord a v s) (storeWord a v (s.setRun r)) := by
  rcases storeWord_cases a v s with ⟨h, e⟩ | ⟨h, e⟩ | ⟨h, e⟩
  · exact ⟨_, _, e, storeWord_ram v _ h, by simp⟩
  · exact ⟨_, _, e, storeWord_port v _ h, by simp⟩
  · exact ⟨_, _, e, storeWord_illegal v _ h, by simp⟩

theorem agreeButRun_branchIf (b : Bool) (addr : Addr8) (s : State) (r : RunState) :
    AgreeButRun (branchIf b addr s) (branchIf b addr (s.setRun r)) := by
  cases b <;> exact agreeButRun_next (by simp)

/-- No instruction reads the run state. -/
theorem agreeButRun_exec (i : Instr) (s : State) (r : RunState) :
    AgreeButRun (exec i s) (exec i (s.setRun r)) := by
  cases i with
  | halt => exact agreeButRun_next (by simp)
  | add d a b => exact agreeButRun_aluOp aluAdd d a b s r
  | sub d a b => exact agreeButRun_aluOp aluSub d a b s r
  | and d a b => exact agreeButRun_aluOp aluAnd d a b s r
  | xor d a b => exact agreeButRun_aluOp aluXor d a b s r
  | shl d a b => exact agreeButRun_aluOp aluShiftl d a b s r
  | shr d a b => exact agreeButRun_aluOp aluShiftr d a b s r
  | loada d addr => exact agreeButRun_next (by simp)
  | load d addr => exact agreeButRun_loadWord d _ s r
  | stor d addr => exact agreeButRun_storeWord _ (s.readReg d) s r
  | loadi d t => exact agreeButRun_loadWord d (s.readReg t) s r
  | stori d t => exact agreeButRun_storeWord (s.readReg t) (s.readReg d) s r
  | bzero d addr => exact agreeButRun_branchIf (decide (s.readReg d = 0#16)) addr s r
  | bposi d addr => exact agreeButRun_branchIf (decide (0 < (s.readReg d).toNat)) addr s r
  | jmpr t => exact agreeButRun_next (by simp [registerTarget])
  | jmpl d addr => exact agreeButRun_next (by simp)

/-! ### The statements -/

/-- Settles O11: a read of register 0 looks at no storage, so it is zero in every state, the one after the writes
included. -/
theorem registerZeroAlwaysReadsZero : Obligations.RegisterZeroAlwaysReadsZero := by
  unfold Obligations.RegisterZeroAlwaysReadsZero
  exact fun s _ => ⟨s.readReg_zero, State.readReg_zero _⟩

/-- Settles O12: the rules of a register write, and the load into register 0 whose write is the identity. -/
theorem registerWriteStoresOrIsIgnored : Obligations.RegisterWriteStoresOrIsIgnored := by
  unfold Obligations.RegisterWriteStoresOrIsIgnored
  intro s d v
  refine ⟨regGets_writeReg s d v, ?_, s.writeReg_pc d v, sameMemory_writeReg s d v, sameStatus_writeReg s d v,
    sameDevices_writeReg s d v, emitted_nil_writeReg s d v, ?_⟩
  · rintro rfl
    exact s.writeReg_zero v
  · intro x rest hp
    exact ⟨_, load_zero_port_takes_input hp, fun _ => rfl, rfl, ⟨rfl, rfl, rfl⟩, rfl, rfl⟩

/-- Settles O42: the halting step is characterised by `step_run_halted_iff`, and the blindness to `run` by
`agreeButRun_exec`. -/
theorem runHaltsInExactlyTwoWays : Obligations.RunHaltsInExactlyTwoWays := by
  unfold Obligations.RunHaltsInExactlyTwoWays
  refine ⟨rfl, ?_, ?_, fun i s r => agreeButRun_exec i s r⟩
  · intro s t hs h
    cases (step_halted hs).symm.trans h
    exact hs
  · intro s t hs h
    rw [step_run_halted_iff hs h]
    constructor
    · rintro (hpc | ⟨i, s', hf, rfl | ⟨d, r, rfl, ha⟩ | ⟨d, r, rfl, ha⟩⟩)
      · exact .inr (.inl hpc)
      · exact .inl ⟨s', hf⟩
      · exact .inr (.inr (.inl ⟨d, r, s', hf, ha⟩))
      · exact .inr (.inr (.inr ⟨d, r, s', hf, ha⟩))
    · rintro (⟨s', hf⟩ | hpc | ⟨d, r, s', hf, ha⟩ | ⟨d, r, s', hf, ha⟩)
      · exact .inr ⟨_, s', hf, .inl rfl⟩
      · exact .inl hpc
      · exact .inr ⟨_, s', hf, .inr (.inl ⟨d, r, rfl, ha⟩)⟩
      · exact .inr ⟨_, s', hf, .inr (.inr ⟨d, r, rfl, ha⟩)⟩

end Sys2Proof.Machine

/-! The memory family (spec/20_memory.md): bus reads (R52, R53), writes to RAM (R55) and to the I/O port (R56). -/

namespace Sys2Proof.Machine

/-! ### The input conversion (R58) -/

/-- Clamping is the nearest value of the signed 16-bit range (R58). -/
theorem clamp16_eq_max_min (v : Int) : clamp16 v = max (-32768) (min v 32767) := by
  unfold clamp16 Config.inMin Config.inMax
  split
  · omega
  · split <;> omega

theorem clamp16_range (v : Int) : -32768 ≤ clamp16 v ∧ clamp16 v ≤ 32767 := by
  rw [clamp16_eq_max_min]
  omega

/-- A value of the signed 16-bit range is encoded in two's complement (R58). -/
theorem enc16_toNat {c : Int} (hlo : -32768 ≤ c) (hhi : c ≤ 32767) :
    ((enc16 c).toNat : Int) = if c < 0 then c + 65536 else c := by
  rw [enc16, BitVec.toNat_ofNat]
  split <;> omega

/-- The word of an input value, with the clamp spelled out. -/
theorem enc16_clamp16_toNat (v : Int) :
    ((enc16 (clamp16 v)).toNat : Int) =
      if max (-32768) (min v 32767) < 0 then max (-32768) (min v 32767) + 65536
      else max (-32768) (min v 32767) := by
  obtain ⟨hlo, hhi⟩ := clamp16_range v
  rw [enc16_toNat hlo hhi, clamp16_eq_max_min]

/-! ### The device calls, as the frames of Safety.lean say them -/

theorem tookInput_takeInput (s : State) (v : Int) (rest : List Int) :
    TookInput v rest s (s.takeInput v rest) := by
  simp [TookInput]

/-- Taking an input value changes nothing of the core (R53). -/
theorem core_frame_takeInput (s : State) (v : Int) (rest : List Int) :
    SameRegs s (s.takeInput v rest) ∧ SameMemory s (s.takeInput v rest) ∧ SameStatus s (s.takeInput v rest) ∧
      (s.takeInput v rest).pc = s.pc := by
  simp [SameRegs, SameMemory, SameStatus]

theorem sentOutput_sendOutput (s : State) (w : Word) : SentOutput (dec16 w) s (s.sendOutput w) := by
  simp [SentOutput]

/-- Sending an output value changes nothing of the core (R56). -/
theorem core_frame_sendOutput (s : State) (w : Word) :
    SameRegs s (s.sendOutput w) ∧ SameMemory s (s.sendOutput w) ∧ SameStatus s (s.sendOutput w) ∧
      (s.sendOutput w).pc = s.pc := by
  simp [SameRegs, SameMemory, SameStatus]

/-! ### A cell write, as the frames of Safety.lean say them -/

theorem onlyCell_setCell (s : State) (a : Nat) (v : Word) : OnlyCell a s (s.setCell a v) :=
  fun k h₀ h₁ => s.mem.readByte_writeCell a v k h₀ h₁

theorem State.setCell_cell_self (s : State) (a : Nat) (v : Word) : (s.setCell a v).cell a = v := by simp

theorem State.setCell_cell_ne (s : State) {a b : Nat} (v : Word) (h : b ≠ a) :
    (s.setCell a v).cell b = s.cell b := by simp [h]

/-! ### The statements -/

/-- Settles O13: the two completing cases of a bus read, with the word of an input value spelled out. -/
theorem busReadReturnsCellOrClampedInput : Obligations.BusReadReturnsCellOrClampedInput := by
  unfold Obligations.BusReadReturnsCellOrClampedInput
  intro s a
  refine ⟨fun h => s.memRead_ram h, fun v rest ha hp => ?_⟩
  exact ⟨_, _, State.memRead_port ha hp, enc16_clamp16_toNat v, tookInput_takeInput s v rest,
    core_frame_takeInput s v rest⟩

/-- Settles O14: the write is `setCell` and its event, and an event changes nothing but the trace. -/
theorem ramWriteRoundTrips : Obligations.RamWriteRoundTrips := by
  unfold Obligations.RamWriteRoundTrips
  intro s a v ha
  have hself : ((s.setCell a.toNat v).emit (.memWrite a v)).cell a.toNat = v := s.setCell_cell_self a.toNat v
  refine ⟨_, s.memWrite_ram v ha, hself, onlyCell_setCell s a.toNat v,
    fun _ hb => s.setCell_cell_ne v hb, ?_, ⟨rfl, rfl, rfl⟩, fun _ => rfl, ⟨rfl, rfl⟩, rfl⟩
  rw [State.memRead_ram _ ha, hself]

/-- Settles O15: the write is one call of the output device, which leaves the inputs to come as they were, so the
later read answers by them. -/
theorem portWriteSendsSignedValue : Obligations.PortWriteSendsSignedValue := by
  unfold Obligations.PortWriteSendsSignedValue
  intro s v
  have hport : (255#16).toNat = 255 := rfl
  obtain ⟨hregs, hmem, hstatus, hpc⟩ := core_frame_sendOutput s v
  refine ⟨_, s.memWrite_port v hport, sentOutput_sendOutput s v, hregs, hmem, hstatus, hpc, ?_⟩
  have hkept : (s.sendOutput v).pending = s.pending := s.sendOutput_pending v
  cases hp : s.pending with
  | nil => exact State.memRead_waiting hport (hkept.trans hp)
  | cons x rest => exact State.memRead_port hport (hkept.trans hp)

end Sys2Proof.Machine

/-! The ALU family (spec/40_alu.md): the ripple chain of Add and Sub with their closed forms (R123, R124), and the
bitwise operations (R125, R126). -/

namespace Sys2Proof.Machine

/-! ### One stage of the chain -/

@[simp] theorem fullAdder_sum (a b c : Bool) : (fullAdder a b c).sum = (a ^^ b ^^ c) := rfl

/-- The carry out of the two half adders and the OR gate is the majority of the three inputs (R122). -/
@[simp] theorem fullAdder_carry (a b c : Bool) : (fullAdder a b c).carry = Bool.atLeastTwo a b c := by
  revert a b c
  decide

/-- The word that stage `i` adds to the sum has the stage's bit at `i` and zeros elsewhere (R123). -/
theorem stageWord_getLsbD (r : Bool) {i j : Nat} (hj : j < 16) :
    ((BitVec.ofBool r).setWidth 16 <<< i).getLsbD j = (decide (j = i) && r) := by
  rcases Nat.lt_trichotomy j i with h | rfl | h
  · simp [h, h.ne]
  · simp [hj]
  · have hne : j - i ≠ 0 := by omega
    simp [hj, h.ne', h.not_gt, BitVec.getLsbD_ofBool, hne]

/-! ### The chain -/

/-- After `n` stages the bits below `n` are the sum bits of their stages, and the others are still zero (R123). -/
theorem rippleSum_getLsbD (a b : Nat → Bool) (cin : Bool) (n : Nat) {j : Nat} (hj : j < 16) :
    (rippleSum a b cin n).getLsbD j =
      (decide (j < n) && (fullAdder (a j) (b j) (rippleCarry a b cin j)).sum) := by
  induction n with
  | zero => simp [rippleSum]
  | succ n ih =>
    rw [rippleSum, BitVec.getLsbD_or, ih, stageWord_getLsbD _ hj]
    rcases Nat.lt_trichotomy j n with h | rfl | h
    · simp [h, h.ne, Nat.lt_succ_of_lt h]
    · simp
    · simp [h.not_gt, h.ne', show ¬j < n + 1 by omega]

/-- Each stage of the whole chain is the full adder: it gives the result's bit and the next carry (R123). -/
theorem ripple_stage (a b : Nat → Bool) (cin : Bool) {i : Nat} (hi : i < 16) :
    fullAdder (a i) (b i) (rippleCarry a b cin i) =
      ⟨(rippleSum a b cin 16).getLsbD i, rippleCarry a b cin (i + 1)⟩ := by
  have hbit : (rippleSum a b cin 16).getLsbD i = (fullAdder (a i) (b i) (rippleCarry a b cin i)).sum := by
    rw [rippleSum_getLsbD a b cin 16 hi, decide_eq_true hi, Bool.true_and]
  rw [hbit]
  rfl

/-- The carries of the chain over the bits of `x` and `y` are the carries of binary addition. The second operand
need only have `y`'s bits below stage `i`, as Sub's inverted bits have. -/
theorem rippleCarry_eq_carry (x y : Word) {b : Nat → Bool} (cin : Bool) (i : Nat)
    (hb : ∀ j < i, b j = y.getLsbD j) : rippleCarry x.getLsbD b cin i = BitVec.carry i x y cin := by
  induction i with
  | zero => simp [rippleCarry]
  | succ i ih =>
    have hprev := ih fun j hj => hb j (Nat.lt_succ_of_lt hj)
    rw [rippleCarry, fullAdder_carry, hprev, hb i i.lt_succ_self, BitVec.carry_succ]

/-- The closed form of the chain: the word sum of the operands and the carry in (R123, R124). -/
theorem rippleSum_eq_add (x y : Word) {b : Nat → Bool} (cin : Bool) (hb : ∀ j < 16, b j = y.getLsbD j) :
    rippleSum x.getLsbD b cin 16 = x + y + (BitVec.ofBool cin).setWidth 16 := by
  apply BitVec.eq_of_getLsbD_eq
  intro i hi
  have hcarry := rippleCarry_eq_carry x y cin i fun j hj => hb j (hj.trans hi)
  simp only [rippleSum_getLsbD _ _ _ _ hi, fullAdder_sum, hcarry, hb i hi, BitVec.getLsbD_add_add_bool hi, hi,
    decide_true, Bool.true_and, Bool.xor_assoc]

/-! ### The operations -/

/-- `Add` is the sum of words (R123). -/
theorem aluAdd_eq_add (a b : Word) : aluAdd a b = a + b := by
  rw [aluAdd, rippleSum_eq_add a b false fun _ _ => rfl]
  simp

/-- `Sub` is the difference of words: the inverted operand and the carry in 1 add the two's complement (R124). -/
theorem aluSub_eq_sub (a b : Word) : aluSub a b = a - b := by
  have hinv : ∀ j < 16, (!b.getLsbD j) = (~~~b).getLsbD j := fun j hj => by simp [hj]
  calc aluSub a b
      = a + ~~~b + 1#16 := rippleSum_eq_add a (~~~b) true hinv
    _ = a - b := by rw [BitVec.add_assoc, ← BitVec.neg_eq_not_add, ← BitVec.sub_eq_add_neg]

theorem aluAdd_toNat (a b : Word) : (aluAdd a b).toNat = (a.toNat + b.toNat) % 65536 := by
  rw [aluAdd_eq_add, BitVec.toNat_add]

/-- The difference as a number, with the remainder of 0 to 65535 that `Int`'s `%` gives (R124). -/
theorem aluSub_toNat (a b : Word) : ((aluSub a b).toNat : Int) = ((a.toNat : Int) - b.toNat) % 65536 := by
  rw [aluSub_eq_sub, BitVec.toNat_sub]
  omega

theorem aluAnd_getLsbD (a b : Word) (i : Nat) : (aluAnd a b).getLsbD i = (a.getLsbD i && b.getLsbD i) :=
  BitVec.getLsbD_and

theorem aluXor_getLsbD (a b : Word) (i : Nat) : (aluXor a b).getLsbD i = (a.getLsbD i ^^ b.getLsbD i) :=
  BitVec.getLsbD_xor

/-! ### The statements -/

/-- Settles O7: the carries are the chain's own, stage by stage, and the closed form is the word sum. -/
theorem addIsRippleCarryAndModularSum : Obligations.AddIsRippleCarryAndModularSum := by
  unfold Obligations.AddIsRippleCarryAndModularSum
  intro a b
  exact ⟨⟨rippleCarry a.getLsbD b.getLsbD false, rfl, fun _ hi => ripple_stage _ _ _ hi⟩, aluAdd_toNat a b⟩

/-- Settles O8: the same chain over the inverted bits with carry in 1, and the closed form is the word difference. -/
theorem subIsInvertedRippleCarryAndModularDifference :
    Obligations.SubIsInvertedRippleCarryAndModularDifference := by
  unfold Obligations.SubIsInvertedRippleCarryAndModularDifference
  intro a b
  exact ⟨⟨rippleCarry a.getLsbD (fun i => !b.getLsbD i) true, rfl,
    fun _ hi => ripple_stage a.getLsbD (fun i => !b.getLsbD i) true hi⟩, aluSub_toNat a b⟩

/-- Settles O9: the bit rules of And and Xor, which hold at every position. -/
theorem logicIsBitwise : Obligations.LogicIsBitwise := by
  unfold Obligations.LogicIsBitwise
  exact fun a b i _ => ⟨aluAnd_getLsbD a b i, aluXor_getLsbD a b i⟩

end Sys2Proof.Machine

/-! The cycle family (spec/41_cpu_cycle_and_interfaces.md): the fetch from RAM and the fetch out of range (R152). -/

namespace Sys2Proof.Machine

/-- An event changes nothing but the trace (R161). -/
theorem frame_emit (s : State) (e : Event) :
    SameRegs s (s.emit e) ∧ SameMemory s (s.emit e) ∧ SameStatus s (s.emit e) ∧ SameDevices s (s.emit e) ∧
      (s.emit e).pc = s.pc := by
  simp [SameRegs, SameMemory, SameStatus, SameDevices]

/-! ### The fetch, by the class of the pc -/

theorem fetchDecode_ram {s : State} (h : s.pc.toNat ≤ 254) :
    fetchDecode s = .instr (decode (s.cell s.pc.toNat)) (fetched s s (s.cell s.pc.toNat)) := by
  simp [fetchDecode, s.memRead_ram h]

theorem fetchDecode_illegal {s : State} (h : 256 ≤ s.pc.toNat) : fetchDecode s = .illegal := by
  simp [fetchDecode, s.memRead_illegal h]

/-- A running machine whose pc is no bus address takes IllegalAddress at the fetch (R153). -/
theorem step_fetch_illegal {s : State} (hs : s.run = .running) (h : 256 ≤ s.pc.toNat) :
    step s = .next (s.raiseIllegalAddress .fetch s.pc) := by
  rw [step_running hs, fetchDecode_illegal h]

/-! ### The statement -/

/-- Settles O37: in RAM the bus read is the cell and the fetch adds its event alone; out of range the fetch takes the
exception, which halts. -/
theorem fetchReadsTheCellAtThePc : Obligations.FetchReadsTheCellAtThePc := by
  unfold Obligations.FetchReadsTheCellAtThePc
  intro s hs
  constructor
  · intro hram
    exact ⟨s.memRead_ram hram, _, fetchDecode_ram hram, frame_emit s _⟩
  · intro hout
    exact ⟨_, step_fetch_illegal hs hout, s.raiseIllegalAddress_run .fetch s.pc⟩

end Sys2Proof.Machine

/-! The encoding family (spec/30_encoding.md): decode against encode (R98, R100), the ignored bits (R96), the mask and
match columns of the opcode map (R94), and the canonical word of each instruction as a number (R98). -/

namespace Sys2Proof

/-! ### The decoder on a composed word -/

theorem decode_wordRR (o : Opcode) (d s t : Nibble) :
    decode (wordRR o d s t) = Fields.instr ⟨o.number, d, s, t, s ++ t⟩ := by
  rw [decode, fieldsOf_wordRR]

theorem decode_wordA (o : Opcode) (d : Nibble) (addr : Addr8) :
    decode (wordA o d addr) = Fields.instr ⟨o.number, d, addr.extractLsb' 4 4, addr.extractLsb' 0 4, addr⟩ := by
  rw [decode, fieldsOf_wordA]

/-- Decode undoes encode (R98, R100). -/
theorem decode_encode (i : Instr) : decode (encode i) = i := by
  cases i with
  | halt => simp [encode, decode_wordRR, Fields.instr]
  | add d s t | sub d s t | and d s t | xor d s t | shl d s t | shr d s t =>
    simp [encode, decode_wordRR, Fields.instr]
  | loadi d t | stori d t | jmpr t => simp [encode, decode_wordRR, Fields.instr]
  | loada d addr | load d addr | stor d addr | bzero d addr | bposi d addr | jmpl d addr =>
    simp [encode, decode_wordA, Fields.instr]

/-- The decoded instruction has the opcode that the word's top nibble names (R94, R95). -/
theorem opcode_decode_wordRR (o : Opcode) (d s t : Nibble) : (decode (wordRR o d s t)).opcode = o := by
  cases o <;> simp [decode_wordRR, Fields.instr, Instr.opcode]

/-! ### Every word is a composed word -/

/-- Every word is its four nibbles, the first of them the number of some opcode (R91, R95). -/
theorem exists_eq_wordRR (w : Word) : ∃ o d s t, w = wordRR o d s t := by
  refine ⟨.ofNibble (w.extractLsb' 12 4), w.extractLsb' 8 4, w.extractLsb' 4 4, w.extractLsb' 0 4, ?_⟩
  have hupper : w.extractLsb' 12 4 ++ w.extractLsb' 8 4 = w.extractLsb' 8 8 :=
    BitVec.extractLsb'_append_extractLsb'_eq_extractLsb' rfl
  have hthree : w.extractLsb' 8 8 ++ w.extractLsb' 4 4 = w.extractLsb' 4 12 :=
    BitVec.extractLsb'_append_extractLsb'_eq_extractLsb' rfl
  have hall : w.extractLsb' 4 12 ++ w.extractLsb' 0 4 = w.extractLsb' 0 16 :=
    BitVec.extractLsb'_append_extractLsb'_eq_extractLsb' rfl
  rw [wordRR, Opcode.number_ofNibble]
  calc w = w.extractLsb' 0 16 := BitVec.extractLsb'_eq_self.symm
    _ = _ := by rw [← hall, ← hthree, ← hupper]

/-- The two formats share their bits: `addr` is `s` and `t` together (R91). -/
theorem wordA_append (o : Opcode) (d s t : Nibble) : wordA o d (s ++ t) = wordRR o d s t := by
  rw [wordA, wordRR, BitVec.append_assoc (x₁ := o.number ++ d)]
  rfl

/-! ### The bitwise operations, nibble by nibble -/

/-- A word written as its four nibbles, the upper one first. -/
def fourNibbles (n d s t : Nibble) : Word := n ++ d ++ s ++ t

theorem wordRR_eq_fourNibbles (o : Opcode) (d s t : Nibble) : wordRR o d s t = fourNibbles o.number d s t := rfl

theorem fourNibbles_and (n d s t n' d' s' t' : Nibble) :
    fourNibbles n d s t &&& fourNibbles n' d' s' t' = fourNibbles (n &&& n') (d &&& d') (s &&& s') (t &&& t') := by
  unfold fourNibbles
  rw [← BitVec.and_append, ← BitVec.and_append, ← BitVec.and_append]

theorem fourNibbles_or (n d s t n' d' s' t' : Nibble) :
    fourNibbles n d s t ||| fourNibbles n' d' s' t' = fourNibbles (n ||| n') (d ||| d') (s ||| s') (t ||| t') := by
  unfold fourNibbles
  rw [← BitVec.or_append, ← BitVec.or_append, ← BitVec.or_append]

theorem fourNibbles_not (n d s t : Nibble) :
    ~~~fourNibbles n d s t = fourNibbles (~~~n) (~~~d) (~~~s) (~~~t) := by
  unfold fourNibbles
  rw [← BitVec.not_append, ← BitVec.not_append, ← BitVec.not_append]

theorem nibble_and_fifteen (n : Nibble) : n &&& 0xF#4 = n := BitVec.and_allOnes

/-! ### The ignored bits, field by field (R96) -/

/-- The ignored bits of the field `d`. -/
def Opcode.ignoredD (o : Opcode) : Nibble := o.ignoredBits.extractLsb' 8 4

/-- The ignored bits of the field `s`. -/
def Opcode.ignoredS (o : Opcode) : Nibble := o.ignoredBits.extractLsb' 4 4

/-- The ignored bits of the field `t`. -/
def Opcode.ignoredT (o : Opcode) : Nibble := o.ignoredBits.extractLsb' 0 4

/-- No bit of the opcode field is ignored. -/
theorem Opcode.ignoredBits_eq_fourNibbles (o : Opcode) :
    o.ignoredBits = fourNibbles 0x0#4 o.ignoredD o.ignoredS o.ignoredT := by
  cases o <;> rfl

/-- Clearing the ignored bits works field by field. -/
theorem wordRR_clear_ignored (o p : Opcode) (d s t : Nibble) :
    wordRR o d s t &&& ~~~p.ignoredBits =
      wordRR o (d &&& ~~~p.ignoredD) (s &&& ~~~p.ignoredS) (t &&& ~~~p.ignoredT) := by
  simp [p.ignoredBits_eq_fourNibbles, wordRR_eq_fourNibbles, fourNibbles_not, fourNibbles_and, nibble_and_fifteen]

/-- Replacing the ignored bits by those of another word works field by field. -/
theorem wordRR_blend_ignored (o o' p : Opcode) (d s t d' s' t' : Nibble) :
    (wordRR o d s t &&& ~~~p.ignoredBits) ||| (wordRR o' d' s' t' &&& p.ignoredBits) =
      wordRR o ((d &&& ~~~p.ignoredD) ||| (d' &&& p.ignoredD)) ((s &&& ~~~p.ignoredS) ||| (s' &&& p.ignoredS))
        ((t &&& ~~~p.ignoredT) ||| (t' &&& p.ignoredT)) := by
  rw [wordRR_clear_ignored]
  simp [p.ignoredBits_eq_fourNibbles, wordRR_eq_fourNibbles, fourNibbles_and, fourNibbles_or]

/-- Encoding a decoded word gives the word with its ignored fields zero, whatever the opcode (R98, R100). -/
theorem encode_decode_wordRR (o : Opcode) (d s t : Nibble) :
    encode (decode (wordRR o d s t)) = wordRR o (d &&& ~~~o.ignoredD) (s &&& ~~~o.ignoredS) (t &&& ~~~o.ignoredT) := by
  cases o <;>
    simp [decode_wordRR, Fields.instr, encode, wordA_append, Opcode.ignoredD, Opcode.ignoredS, Opcode.ignoredT,
      Opcode.ignoredBits, nibble_and_fifteen]

/-- An instruction does not depend on its ignored fields (R96). -/
theorem decode_wordRR_blend_ignored (o : Opcode) (d s t d' s' t' : Nibble) :
    decode (wordRR o ((d &&& ~~~o.ignoredD) ||| (d' &&& o.ignoredD)) ((s &&& ~~~o.ignoredS) ||| (s' &&& o.ignoredS))
        ((t &&& ~~~o.ignoredT) ||| (t' &&& o.ignoredT))) = decode (wordRR o d s t) := by
  cases o <;>
    simp [decode_wordRR, Fields.instr, Opcode.ignoredD, Opcode.ignoredS, Opcode.ignoredT, Opcode.ignoredBits,
      nibble_and_fifteen]

/-! ### The opcode map (R94) -/

/-- The mask keeps the opcode nibble, so the row of a word is the row of its own opcode. -/
theorem wordRR_matches_iff (o p : Opcode) (d s t : Nibble) :
    wordRR o d s t &&& opcodeMask = p.matchWord ↔ o = p := by
  have hmask : opcodeMask = fourNibbles 0xF#4 0x0#4 0x0#4 0x0#4 := by decide
  have hmatch : o.matchWord = fourNibbles o.number 0x0#4 0x0#4 0x0#4 := by cases o <;> rfl
  have hkeep : wordRR o d s t &&& opcodeMask = o.matchWord := by
    simp [hmask, hmatch, wordRR_eq_fourNibbles, fourNibbles_and, nibble_and_fifteen]
  rw [hkeep, Opcode.matchWord, Opcode.matchWord, BitVec.append_left_inj]
  refine ⟨fun h => ?_, fun h => h ▸ rfl⟩
  rw [← o.ofNibble_number, h, p.ofNibble_number]

/-! ### Composed words as numbers (R98) -/

/-- Joining fields adds them, the upper one at its weight. -/
theorem toNat_append_eq_add {m n : Nat} (x : BitVec m) (y : BitVec n) :
    (x ++ y).toNat = 2 ^ n * x.toNat + y.toNat := by
  rw [BitVec.toNat_append, ← Nat.shiftLeft_add_eq_or_of_lt y.isLt, Nat.shiftLeft_eq, Nat.mul_comm]

theorem wordRR_toNat (o : Opcode) (d s t : Nibble) :
    (wordRR o d s t).toNat = 4096 * o.number.toNat + 256 * d.toNat + 16 * s.toNat + t.toNat := by
  simp only [wordRR, toNat_append_eq_add]
  omega

theorem wordA_toNat (o : Opcode) (d : Nibble) (addr : Addr8) :
    (wordA o d addr).toNat = 4096 * o.number.toNat + 256 * d.toNat + addr.toNat := by
  simp only [wordA, toNat_append_eq_add]
  omega

/-! ### The statements -/

/-- Settles O1: the fields of a composed word are the fields it was composed of. -/
theorem decodeInvertsEncode : Obligations.DecodeInvertsEncode := by
  unfold Obligations.DecodeInvertsEncode
  exact decode_encode

/-- Settles O2: every word is four nibbles, and the ignored bits are whole nibbles that its opcode does not read. -/
theorem ignoredBitsAreClearedAndNeverMatter : Obligations.IgnoredBitsAreClearedAndNeverMatter := by
  unfold Obligations.IgnoredBitsAreClearedAndNeverMatter
  intro w v
  obtain ⟨o, d, s, t, rfl⟩ := exists_eq_wordRR w
  obtain ⟨o', d', s', t', rfl⟩ := exists_eq_wordRR v
  rw [opcode_decode_wordRR]
  constructor
  · rw [encode_decode_wordRR, wordRR_clear_ignored]
  · rw [wordRR_blend_ignored, decode_wordRR_blend_ignored]

/-- Settles O3: both sides say that the opcode nibble is the row's number. -/
theorem everyWordMatchesItsOwnOpcodeRow : Obligations.EveryWordMatchesItsOwnOpcodeRow := by
  unfold Obligations.EveryWordMatchesItsOwnOpcodeRow
  intro w p
  obtain ⟨o, d, s, t, rfl⟩ := exists_eq_wordRR w
  rw [opcode_decode_wordRR, wordRR_matches_iff]

/-- Settles O4: the two formats as numbers, at the sixteen opcode numbers. -/
theorem canonicalWordFormulas : Obligations.CanonicalWordFormulas := by
  unfold Obligations.CanonicalWordFormulas
  intro d s t addr
  simp [encode, wordRR_toNat, wordA_toNat, Opcode.number]

/-- Settles O5: ten fixed words, decoded. -/
theorem specDecodeVectors : Obligations.SpecDecodeVectors := by
  unfold Obligations.SpecDecodeVectors
  decide

end Sys2Proof

/-! The invariants of the whole machine: what every step keeps (spec/10_state.md R20, R29, R35, R36; spec/20_memory.md
R55, R59, R66, R71). Each is proved of an instruction's `Effect` and of the fetch, and of the step by
`step_cases_by_fetch`. -/

namespace Sys2Proof.Machine

/-! ### The fetch, and the step through it -/

/-- A fetch changes no field of the core and sends nothing. -/
structure FetchFrame (s s' : State) : Prop where
  regs : s'.regs = s.regs
  pc : s'.pc = s.pc
  mem : s'.mem = s.mem
  run : s'.run = s.run
  haltCause : s'.haltCause = s.haltCause
  output : s'.output = s.output

theorem FetchFrame.readReg {s s' : State} (h : FetchFrame s s') (r : Reg) : s'.readReg r = s.readReg r := by
  simp [State.readReg, h.regs]

/-- A fetch that answers an instruction emits the fetch event; at `pc = 255` it takes one input value first. -/
theorem state_of_fetchDecode_instr {s s' : State} {i : Instr} (h : fetchDecode s = .instr i s') :
    (s.pc.toNat ≤ 254 ∧ ∃ w, s' = s.emit (.fetch s.pc w (fieldsOf w))) ∨
    (s.pc.toNat = 255 ∧ ∃ v rest w, s.pending = v :: rest ∧
      s' = (s.takeInput v rest).emit (.fetch s.pc w (fieldsOf w))) := by
  rcases fetchDecode_cases s with ⟨hpc, e⟩ | ⟨v, rest, hpc, hp, e⟩ | ⟨-, -, e⟩ | ⟨-, e⟩ <;> cases e.symm.trans h
  · exact .inl ⟨hpc, _, rfl⟩
  · exact .inr ⟨hpc, v, rest, _, hp, rfl⟩

theorem fetchFrame_of_instr {s s' : State} {i : Instr} (h : fetchDecode s = .instr i s') : FetchFrame s s' := by
  rcases state_of_fetchDecode_instr h with ⟨-, w, rfl⟩ | ⟨-, v, rest, w, -, rfl⟩
  · exact ⟨rfl, rfl, rfl, rfl, rfl, rfl⟩
  · exact ⟨rfl, rfl, rfl, rfl, rfl, rfl⟩

/-- A fetch from RAM touches no device. -/
theorem sameDevices_of_fetchDecode_instr {s s' : State} {i : Instr} (h : fetchDecode s = .instr i s')
    (hpc : s.pc.toNat ≠ 255) : SameDevices s s' := by
  rcases state_of_fetchDecode_instr h with ⟨-, w, rfl⟩ | ⟨hport, -⟩
  · exact ⟨rfl, rfl, rfl⟩
  · exact absurd hport hpc

/-- All a step can do, by its fetch: nothing, the exception at the fetch, or the effect of the fetched instruction
(R160). -/
theorem step_cases_by_fetch {s t : State} (h : step s = .next t) :
    t = s ∨
    (s.run = .running ∧ 256 ≤ s.pc.toNat ∧ t = s.raiseIllegalAddress .fetch s.pc) ∨
    ∃ i s', s.run = .running ∧ fetchDecode s = .instr i s' ∧ Effect i s' t := by
  cases hrun : s.run with
  | halted =>
    cases (step_halted hrun).symm.trans h
    exact .inl rfl
  | running =>
    rw [step_running hrun] at h
    cases hf : fetchDecode s with
    | illegal =>
      rw [hf] at h
      cases h
      exact .inr (.inl ⟨rfl, pc_of_fetchDecode_illegal hf, rfl⟩)
    | waiting =>
      rw [hf] at h
      cases h
      exact .inl rfl
    | instr i s' =>
      rw [hf] at h
      by_cases ha : awaitsInput i s' = true
      · exact .inl (by simpa [ha] using h.symm)
      · exact .inr (.inr ⟨i, s', rfl, rfl, effect_of_exec (by simpa [ha] using h)⟩)

/-- A property of one state is kept by every step if the fetch, the exception at the fetch and every instruction keep
it. -/
theorem step_keeps (P : State → Prop)
    (hfetch : ∀ {s s' : State} {i : Instr}, fetchDecode s = .instr i s' → P s → P s')
    (hfault : ∀ {s : State}, 256 ≤ s.pc.toNat → P s → P (s.raiseIllegalAddress .fetch s.pc))
    (heffect : ∀ {i : Instr} {s t : State}, Effect i s t → P s → P t)
    {s t : State} (hs : P s) (h : step s = .next t) : P t := by
  rcases step_cases_by_fetch h with rfl | ⟨-, hpc, rfl⟩ | ⟨i, s', -, hf, he⟩
  · exact hs
  · exact hfault hpc hs
  · exact heffect he (hfetch hf hs)

/-! ### The memory's canonical form (R29) -/

theorem Effect.keeps_memoryInv {i : Instr} {s t : State} (h : Effect i s t) (hs : MemoryInv s) : MemoryInv t := by
  cases h with
  | storeRam d a hi ha => exact Memory.wf_writeCell hs (show a.toNat < 255 by omega) _
  | reg | loadRam | loadPort | wait | loadFault | storePort | storeFault | halt | fallThrough | branch | jump | link =>
    simpa [MemoryInv] using hs

/-! ### The run state and the halt cause (R35, R241) -/

theorem statusInv_of_sameStatus {s t : State} (h : SameStatus s t) (hs : StatusInv s) : StatusInv t := by
  obtain ⟨hrun, hcause⟩ := h
  rw [StatusInv, hrun, hcause]
  exact hs

/-- A halt for an illegal address leaves a consistent status if the address is 256 or more. -/
theorem statusInv_raiseIllegalAddress (s : State) (kind : AccessKind) {a : Word} (ha : 256 ≤ a.toNat) :
    StatusInv (s.raiseIllegalAddress kind a) := by
  simpa [StatusInv] using ha

theorem statusInv_halt_explicit (s : State) : StatusInv (s.halt .explicit) := by
  simp [StatusInv]

theorem Effect.keeps_statusInv {i : Instr} {s t : State} (h : Effect i s t) (hs : StatusInv s) : StatusInv t := by
  cases h with
  | loadFault d r hi ha => exact statusInv_raiseIllegalAddress s _ ha
  | storeFault d r hi ha => exact statusInv_raiseIllegalAddress s _ ha
  | halt => exact statusInv_halt_explicit s
  | reg | loadRam | loadPort | wait | storeRam | storePort | fallThrough | branch | jump | link =>
    exact statusInv_of_sameStatus (by simp [SameStatus]) hs

/-! ### The trace and the devices (R71, R161) -/

@[simp] theorem tracedInputs_append (es fs : List Event) :
    tracedInputs (es ++ fs) = tracedInputs es ++ tracedInputs fs := List.filterMap_append

@[simp] theorem tracedOutputs_append (es fs : List Event) :
    tracedOutputs (es ++ fs) = tracedOutputs es ++ tracedOutputs fs := List.filterMap_append

/-- The event is no device call. -/
def Event.isInternal : Event → Bool
  | .input _ _ | .output _ _ => false
  | .fetch _ _ _ | .memRead _ _ | .memWrite _ _ | .halt _ => true

theorem traced_internal {e : Event} (h : e.isInternal = true) : tracedInputs [e] = [] ∧ tracedOutputs [e] = [] := by
  cases e with
  | fetch | memRead | memWrite | halt => exact ⟨rfl, rfl⟩
  | input | output => cases h

theorem deviceInv_congr {s t : State} (hs : DeviceInv s) (hcons : t.consumed = s.consumed)
    (hout : t.output = s.output) (htrace : t.trace = s.trace) : DeviceInv t := by
  rw [DeviceInv, hcons, hout, htrace]
  exact hs

/-- The agreement is kept where the devices are untouched and one internal event is emitted. -/
theorem deviceInv_internal {s t : State} (e : Event) (hs : DeviceInv s) (he : e.isInternal = true)
    (hcons : t.consumed = s.consumed) (hout : t.output = s.output) (htrace : t.trace = s.trace ++ [e]) : DeviceInv t := by
  obtain ⟨hin, hsent, hrange⟩ := hs
  obtain ⟨hnoin, hnoout⟩ := traced_internal he
  refine ⟨?_, ?_, by rwa [hout]⟩
  · rw [htrace, tracedInputs_append, hnoin, List.append_nil, hin, hcons]
  · rw [htrace, tracedOutputs_append, hnoout, List.append_nil, hsent, hout]

/-- One input call adds its value to the trace and to the consumed inputs. -/
theorem deviceInv_takeInput {s : State} (v : Int) (rest : List Int) (hs : DeviceInv s) :
    DeviceInv (s.takeInput v rest) := by
  obtain ⟨hin, hsent, hrange⟩ := hs
  refine ⟨?_, ?_, hrange⟩
  · rw [State.takeInput_trace, tracedInputs_append, hin]
    rfl
  · rw [State.takeInput_trace, tracedOutputs_append, hsent]
    exact List.append_nil _

/-- One output call adds its value to the trace and to the outputs, and the value is a signed 16-bit one. -/
theorem deviceInv_sendOutput {s : State} (w : Word) (hs : DeviceInv s) : DeviceInv (s.sendOutput w) := by
  obtain ⟨hin, hsent, hrange⟩ := hs
  refine ⟨?_, ?_, ?_⟩
  · rw [State.sendOutput_trace, tracedInputs_append, hin]
    exact List.append_nil _
  · rw [State.sendOutput_trace, tracedOutputs_append, hsent]
    rfl
  · intro v hv
    rcases List.mem_append.1 hv with hold | hnew
    · exact hrange v hold
    · rw [List.mem_singleton.1 hnew]
      exact dec16_range w

theorem deviceInv_fetchDecode {s s' : State} {i : Instr} (h : fetchDecode s = .instr i s') (hs : DeviceInv s) :
    DeviceInv s' := by
  rcases state_of_fetchDecode_instr h with ⟨-, w, rfl⟩ | ⟨-, v, rest, w, -, rfl⟩
  · exact deviceInv_internal (.fetch s.pc w (fieldsOf w)) hs rfl rfl rfl rfl
  · exact deviceInv_internal (.fetch s.pc w (fieldsOf w)) (deviceInv_takeInput v rest hs) rfl rfl rfl rfl

theorem deviceInv_halt {s : State} (c : HaltCause) (hs : DeviceInv s) : DeviceInv (s.halt c) :=
  deviceInv_internal (.halt c) hs rfl rfl rfl rfl

theorem Effect.keeps_deviceInv {i : Instr} {s t : State} (h : Effect i s t) (hs : DeviceInv s) : DeviceInv t := by
  cases h with
  | loadRam d a => exact deviceInv_internal (.memRead a (s.cell a.toNat)) hs rfl (by simp) (by simp) (by simp)
  | storeRam d a => exact deviceInv_internal (.memWrite a (s.readReg d)) hs rfl rfl rfl rfl
  | loadPort d a v rest =>
    exact deviceInv_congr (deviceInv_takeInput v rest hs) (by simp) (by simp) (by simp)
  | storePort d a => exact deviceInv_congr (deviceInv_sendOutput (s.readReg d) hs) rfl rfl rfl
  | loadFault | storeFault | halt => exact deviceInv_halt _ hs
  | wait => exact hs
  | reg | fallThrough | branch | jump | link => exact deviceInv_congr hs (by simp) (by simp) (by simp)

/-! ### The statements on invariants -/

/-- Settles O45: only a store to RAM changes the memory, by a cell write inside the cells. -/
theorem stepKeepsMemoryCanonical : Obligations.StepKeepsMemoryCanonical := by
  unfold Obligations.StepKeepsMemoryCanonical
  intro s t hs h
  refine step_keeps MemoryInv (fun hf hs => ?_) (fun _ hs => hs) Effect.keeps_memoryInv hs h
  rw [MemoryInv, (fetchFrame_of_instr hf).mem]
  exact hs

/-- Settles O46: the status changes only by HALT and by an exception, whose address is illegal. -/
theorem stepKeepsStatusConsistent : Obligations.StepKeepsStatusConsistent := by
  unfold Obligations.StepKeepsStatusConsistent
  intro s t hs h
  refine step_keeps StatusInv (fun hf hs => ?_) (fun hpc _ => statusInv_raiseIllegalAddress _ _ hpc)
    Effect.keeps_statusInv hs h
  have hframe := fetchFrame_of_instr hf
  exact statusInv_of_sameStatus ⟨hframe.run, hframe.haltCause⟩ hs

/-- Settles O47: each device call emits its own event with its own value, and no other event is a device call's. -/
theorem stepKeepsTraceAndDevicesInAgreement : Obligations.StepKeepsTraceAndDevicesInAgreement := by
  unfold Obligations.StepKeepsTraceAndDevicesInAgreement
  intro s t hs h
  exact step_keeps DeviceInv deviceInv_fetchDecode (fun _ hs => deviceInv_halt _ hs) Effect.keeps_deviceInv hs h

/-- Settles O48: at reset the memory and the trace are empty and the machine runs with no cause. -/
theorem resetMeetsTheInvariants : Obligations.ResetMeetsTheInvariants := by
  unfold Obligations.ResetMeetsTheInvariants
  refine ⟨Memory.wf_reset, ?_, ?_⟩
  · simp [StatusInv, State.reset]
  · simp [DeviceInv, State.reset, tracedInputs, tracedOutputs]

end Sys2Proof.Machine

/-! What a step can change in the machine, and where (spec/10_state.md R20, R36; spec/20_memory.md R55, R59, R66;
spec/60_exceptions.md R242, R243): each an `Effect` lemma carried through the fetch. -/

namespace Sys2Proof.Machine

/-! ### Memory (R55) -/

/-- A byte that an instruction changes is one of the two of the RAM cell it writes. -/
theorem Effect.readByte_changed {i : Instr} {s t : State} {k : Nat} (h : Effect i s t)
    (hk : t.mem.readByte k ≠ s.mem.readByte k) :
    ∃ a, dataWriteAddress i s = some a ∧ a.toNat ≤ 254 ∧ (k = 2 * a.toNat ∨ k = 2 * a.toNat + 1) := by
  cases h with
  | storeRam d a hi ha =>
    refine ⟨a, hi, ha, ?_⟩
    by_contra hout
    obtain ⟨h₀, h₁⟩ := not_or.1 hout
    exact hk (onlyCell_setCell s a.toNat (s.readReg d) k h₀ h₁)
  | reg | loadRam | loadPort | wait | loadFault | storePort | storeFault | halt | fallThrough | branch | jump | link =>
    simp at hk

/-! ### Registers (R36) -/

/-- An instruction that writes a register writes one and no memory. -/
theorem Effect.sameRegs_or_onlyReg {i : Instr} {s t : State} (h : Effect i s t) :
    SameRegs s t ∨ ∃ d, OnlyReg d s t ∧ SameMemory s t := by
  cases h with
  | reg d v => exact .inr ⟨d, (regGets_writeReg s d v).2, sameMemory_writeReg s d v⟩
  | loadRam d a =>
    exact .inr ⟨d, (regGets_writeReg (s.emit (.memRead a _)) d _).2, sameMemory_writeReg (s.emit (.memRead a _)) d _⟩
  | loadPort d a v rest =>
    exact .inr ⟨d, (regGets_writeReg (s.takeInput v rest) d _).2, sameMemory_writeReg (s.takeInput v rest) d _⟩
  | link d addr => exact .inr ⟨d, (regGets_writeReg s d s.nextPc).2, sameMemory_writeReg s d s.nextPc⟩
  | wait | loadFault | storeRam | storePort | storeFault | halt | fallThrough | branch | jump =>
    exact .inl fun _ => rfl

/-! ### Devices (R59, R66) -/

theorem SameDevices.trans {s t u : State} (h : SameDevices s t) (h' : SameDevices t u) : SameDevices s u := by
  obtain ⟨hpend, hcons, hout⟩ := h
  obtain ⟨hpend', hcons', hout'⟩ := h'
  exact ⟨hpend'.trans hpend, hcons'.trans hcons, hout'.trans hout⟩

/-- An instruction that touches a device accesses the port. -/
theorem Effect.sameDevices_or_port {i : Instr} {s t : State} (h : Effect i s t) :
    SameDevices s t ∨
      ∃ a, (dataReadAddress i s = some a ∨ dataWriteAddress i s = some a) ∧ a.toNat = 255 := by
  cases h with
  | loadPort d a v rest hi ha => exact .inr ⟨a, .inl hi, ha⟩
  | storePort d a hi ha => exact .inr ⟨a, .inr hi, ha⟩
  | reg | loadRam | wait | loadFault | storeRam | storeFault | halt | fallThrough | branch | jump | link =>
    exact .inl (by simp [SameDevices])

/-- Inputs are taken from the front, in order, and the outputs sent before stay. -/
def DeviceOrder (s t : State) : Prop :=
  t.consumed ++ t.pending = s.consumed ++ s.pending ∧ s.output <+: t.output ∧ s.consumed <+: t.consumed

theorem DeviceOrder.trans {s t u : State} (h : DeviceOrder s t) (h' : DeviceOrder t u) : DeviceOrder s u := by
  obtain ⟨hin, hout, hcons⟩ := h
  obtain ⟨hin', hout', hcons'⟩ := h'
  exact ⟨hin'.trans hin, hout.trans hout', hcons.trans hcons'⟩

theorem deviceOrder_of_sameDevices {s t : State} (h : SameDevices s t) : DeviceOrder s t := by
  obtain ⟨hpend, hcons, hout⟩ := h
  rw [DeviceOrder, hpend, hcons, hout]
  exact ⟨rfl, List.prefix_rfl, List.prefix_rfl⟩

theorem deviceOrder_of_tookInput {s t : State} {v : Int} {rest : List Int} (hp : s.pending = v :: rest)
    (h : TookInput v rest s t) : DeviceOrder s t := by
  obtain ⟨hpend, hcons, hout⟩ := h
  rw [DeviceOrder, hpend, hcons, hout, hp]
  exact ⟨List.append_assoc _ _ _, List.prefix_rfl, List.prefix_append _ _⟩

theorem deviceOrder_of_sentOutput {s t : State} {v : Int} (h : SentOutput v s t) : DeviceOrder s t := by
  obtain ⟨hpend, hcons, hout⟩ := h
  rw [DeviceOrder, hpend, hcons, hout]
  exact ⟨rfl, List.prefix_append _ _, List.prefix_rfl⟩

theorem Effect.deviceOrder {i : Instr} {s t : State} (h : Effect i s t) : DeviceOrder s t := by
  cases h with
  | loadPort d a v rest hi ha hp => exact deviceOrder_of_tookInput hp (by simp [TookInput])
  | storePort d a => exact deviceOrder_of_sentOutput (sentOutput_sendOutput s (s.readReg d))
  | reg | loadRam | wait | loadFault | storeRam | storeFault | halt | fallThrough | branch | jump | link =>
    exact deviceOrder_of_sameDevices (by simp [SameDevices])

theorem deviceOrder_of_fetchDecode_instr {s s' : State} {i : Instr} (h : fetchDecode s = .instr i s') :
    DeviceOrder s s' := by
  rcases state_of_fetchDecode_instr h with ⟨-, w, rfl⟩ | ⟨-, v, rest, w, hp, rfl⟩
  · exact deviceOrder_of_sameDevices ⟨rfl, rfl, rfl⟩
  · exact deviceOrder_of_tookInput hp ⟨rfl, rfl, rfl⟩

/-! ### The pc (R242) -/

/-- Where an instruction can take the pc: it stays, goes on by one, goes to a direct target, or JMPR sets it. -/
theorem Effect.pc_cases {i : Instr} {s t : State} (h : Effect i s t) :
    t.pc = s.pc ∨ t.pc = s.nextPc ∨ t.pc.toNat < 256 ∨ ∃ r, i = .jmpr r ∧ t.pc = s.readReg r := by
  cases h with
  | wait | loadFault | storeFault | halt => exact .inl rfl
  | reg | loadRam | loadPort | storeRam | storePort | fallThrough => exact .inr (.inl (by simp))
  | branch addr | link d addr => exact .inr (.inr (.inl (zext16_lt addr)))
  | jump r hi => exact .inr (.inr (.inr ⟨r, hi, rfl⟩))

theorem State.nextPc_toNat {s : State} (h : s.pc.toNat ≤ 255) : s.nextPc.toNat = s.pc.toNat + 1 := by
  rw [State.nextPc, BitVec.toNat_add, BitVec.toNat_ofNat]
  omega

/-! ### Halting (R243) -/

/-- An instruction that halts a running machine is HALT, or takes the exception at an illegal address and does nothing
else. -/
theorem Effect.halted_cases {i : Instr} {s t : State} (h : Effect i s t) (hs : s.run = .running)
    (ht : t.run = .halted) :
    (i = .halt ∧ t = s.halt .explicit) ∨ ∃ kind a, 256 ≤ a.toNat ∧ t = s.raiseIllegalAddress kind a := by
  cases h with
  | halt hi => exact .inl ⟨hi, rfl⟩
  | loadFault d r hi ha => exact .inr ⟨.load, s.readReg r, ha, rfl⟩
  | storeFault d r hi ha => exact .inr ⟨.store, s.readReg r, ha, rfl⟩
  | reg | loadRam | loadPort | wait | storeRam | storePort | fallThrough | branch | jump | link =>
    simp [hs] at ht

/-- A running machine that becomes halted executed HALT, or took the exception at the fetch or in the instruction. -/
theorem step_halted_cases {s t : State} (hs : s.run = .running) (h : step s = .next t) (ht : t.run = .halted) :
    (256 ≤ s.pc.toNat ∧ t = s.raiseIllegalAddress .fetch s.pc) ∨
    ∃ i s', fetchDecode s = .instr i s' ∧
      ((i = .halt ∧ t = s'.halt .explicit) ∨ ∃ kind a, 256 ≤ a.toNat ∧ t = s'.raiseIllegalAddress kind a) := by
  rcases step_cases_by_fetch h with rfl | ⟨-, hpc, he⟩ | ⟨i, s', -, hf, he⟩
  · simp [hs] at ht
  · exact .inl ⟨hpc, he⟩
  · exact .inr ⟨i, s', hf, he.halted_cases ((fetchFrame_of_instr hf).run.trans hs) ht⟩

/-! ### The statements -/

/-- Settles O49: the fetch changes no memory, so the changed byte is the executed store's. -/
theorem onlyStoresChangeMemory : Obligations.OnlyStoresChangeMemory := by
  unfold Obligations.OnlyStoresChangeMemory
  intro s t k h hk
  rcases step_cases_by_fetch h with rfl | ⟨-, -, rfl⟩ | ⟨i, s', hs, hf, he⟩
  · exact absurd rfl hk
  · exact absurd rfl hk
  · rw [← (fetchFrame_of_instr hf).mem] at hk
    obtain ⟨a, hi, ha, hcell⟩ := he.readByte_changed hk
    exact ⟨i, s', a, hs, hf, hi, ha, hcell⟩

/-- Settles O50: the fetch and the instruction each touch a device only at 255, and each keeps the order. -/
theorem devicesAreTouchedOnlyThroughThePort : Obligations.DevicesAreTouchedOnlyThroughThePort := by
  unfold Obligations.DevicesAreTouchedOnlyThroughThePort
  intro s t h
  rcases step_cases_by_fetch h with rfl | ⟨-, -, rfl⟩ | ⟨i, s', hs, hf, he⟩
  · exact ⟨fun hd => absurd ⟨rfl, rfl, rfl⟩ hd, deviceOrder_of_sameDevices ⟨rfl, rfl, rfl⟩⟩
  · exact ⟨fun hd => absurd ⟨rfl, rfl, rfl⟩ hd, deviceOrder_of_sameDevices ⟨rfl, rfl, rfl⟩⟩
  · refine ⟨fun hd => ?_, (deviceOrder_of_fetchDecode_instr hf).trans he.deviceOrder⟩
    by_cases hpc : s.pc.toNat = 255
    · exact .inl hpc
    · rcases he.sameDevices_or_port with hsame | ⟨a, hi, ha⟩
      · exact absurd ((sameDevices_of_fetchDecode_instr hf hpc).trans hsame) hd
      · exact .inr ⟨i, s', a, hf, hi, ha⟩

/-- Settles O51: of the places an instruction can take the pc, only JMPR's register and `255 + 1` are beyond 255. -/
theorem pcLeavesTheAddressSpaceOnlyByJmprOrFallingOff :
    Obligations.PcLeavesTheAddressSpaceOnlyByJmprOrFallingOff := by
  unfold Obligations.PcLeavesTheAddressSpaceOnlyByJmprOrFallingOff
  intro s t hpc h ht
  rcases step_cases_by_fetch h with rfl | ⟨-, hout, -⟩ | ⟨i, s', hs, hf, he⟩
  · omega
  · omega
  · have hkept : s'.pc = s.pc := (fetchFrame_of_instr hf).pc
    rcases he.pc_cases with hstay | hnext | hdirect | ⟨r, rfl, hjump⟩
    · rw [hstay, hkept] at ht
      omega
    · have hplus : t.pc.toNat = s.pc.toNat + 1 := by rw [hnext, State.nextPc_toNat (by rwa [hkept]), hkept]
      exact .inr ⟨by omega, by omega⟩
    · omega
    · exact .inl ⟨r, s', hf, hjump⟩

/-- Settles O52: an instruction that writes a register writes one and no memory; any other writes no register. -/
theorem oneWritePerStep : Obligations.OneWritePerStep := by
  unfold Obligations.OneWritePerStep
  intro s t h
  have key : SameRegs s t ∨ ∃ d, OnlyReg d s t ∧ SameMemory s t := by
    rcases step_cases_by_fetch h with rfl | ⟨-, -, rfl⟩ | ⟨i, s', hs, hf, he⟩
    · exact .inl fun _ => rfl
    · exact .inl fun _ => rfl
    · have hframe := fetchFrame_of_instr hf
      rcases he.sameRegs_or_onlyReg with hregs | ⟨d, honly, hmem⟩
      · exact .inl fun r => (hregs r).trans (hframe.readReg r)
      · exact .inr ⟨d, fun r hr => (honly r hr).trans (hframe.readReg r), fun k => by rw [hmem k, hframe.mem]⟩
  rcases key with hregs | ⟨d, honly, hmem⟩
  · exact ⟨⟨0#4, fun r _ => hregs r⟩, .inl hregs⟩
  · exact ⟨⟨d, honly⟩, .inr hmem⟩

/-- Settles O43: the exception changes status and trace alone, on the state after the fetch, and a fetch changes
nothing of the core. -/
theorem addressFaultsArePrecise : Obligations.AddressFaultsArePrecise := by
  unfold Obligations.AddressFaultsArePrecise
  intro s t kind a hs h ht hcause
  rcases step_halted_cases hs h ht with ⟨hpc, rfl⟩ | ⟨i, s', hf, ⟨-, rfl⟩ | ⟨kind', a', ha, rfl⟩⟩
  · cases hcause
    exact ⟨hpc, rfl, fun _ => rfl, fun _ => rfl, rfl, fun _ => ⟨rfl, rfl, rfl⟩⟩
  · cases hcause
  · cases hcause
    have hframe := fetchFrame_of_instr hf
    have hdevices : s.pc.toNat ≠ 255 → SameDevices s s' := sameDevices_of_fetchDecode_instr hf
    exact ⟨ha, hframe.pc, hframe.readReg, fun k => congrArg (Memory.readByte · k) hframe.mem, hframe.output,
      hdevices⟩

/-- Settles O41: a halted machine's step is the identity, so its run is; and a step halts only by HALT or by the
exception. -/
theorem haltedIsTerminal : Obligations.HaltedIsTerminal := by
  unfold Obligations.HaltedIsTerminal
  constructor
  · intro n s hs
    induction n with
    | zero => rfl
    | succ n ih => rw [core_run_succ n (step_halted hs), ih]
  · intro s t hs h ht
    rcases step_halted_cases hs h ht with ⟨hpc, rfl⟩ | ⟨i, s', hf, ⟨rfl, rfl⟩ | ⟨kind, a, ha, rfl⟩⟩
    · exact .inr ⟨.fetch, s.pc, rfl, hpc⟩
    · exact .inl ⟨rfl, s', hf⟩
    · exact .inr ⟨kind, a, rfl, ha⟩

end Sys2Proof.Machine

/-! The conversions and the bus (spec/20_memory.md R58, R59), and the one-bit adders and shifts of the ALU
(spec/40_alu.md R121, R122, R127 to R129). -/

namespace Sys2Proof.Machine

/-! ### The conversions (R58) -/

/-- The output value of a word is its two's complement reading (R58). -/
theorem dec16_eq_toInt (w : Word) : dec16 w = w.toInt := by
  rw [dec16, BitVec.toInt_eq_toNat_cond]
  split <;> split <;> omega

theorem dec16_enc16 {c : Int} (hlo : -32768 ≤ c) (hhi : c ≤ 32767) : dec16 (enc16 c) = c := by
  have h := enc16_toNat hlo hhi
  rw [dec16]
  split at h <;> split <;> omega

theorem enc16_dec16 (w : Word) : enc16 (dec16 w) = w := by
  obtain ⟨hlo, hhi⟩ := dec16_range w
  have henc := enc16_toNat hlo hhi
  have hdec : dec16 w = if w.toNat ≥ 32768 then (w.toNat : Int) - 65536 else (w.toNat : Int) := rfl
  have hw := w.isLt
  apply BitVec.eq_of_toNat_eq
  split at henc <;> split at hdec <;> omega

/-! ### The shifts (R127 to R129) -/

theorem aluShiftl_toNat (a b : Word) : (aluShiftl a b).toNat = (a.toNat * 2 ^ (b.toNat % 16)) % 65536 := by
  rw [aluShiftl, BitVec.toNat_shiftLeft, Nat.shiftLeft_eq]
  rfl

theorem aluShiftr_toNat (a b : Word) : (aluShiftr a b).toNat = a.toNat / 2 ^ (b.toNat % 16) := by
  rw [aluShiftr, BitVec.toNat_ushiftRight, Nat.shiftRight_eq_div_pow]
  rfl

/-- A bit of a left shift comes from below, or is a zero that entered at bit 0 (R128). -/
theorem aluShiftl_getLsbD (a b : Word) {i : Nat} (hi : i < 16) :
    (aluShiftl a b).getLsbD i = if b.toNat % 16 ≤ i then a.getLsbD (i - b.toNat % 16) else false := by
  rw [aluShiftl, shiftAmount, Config.shiftMod, BitVec.getLsbD_shiftLeft]
  by_cases h : b.toNat % 16 ≤ i
  · simp [hi, h, Nat.not_lt.2 h]
  · simp [h, Nat.not_le.1 h]

/-- A bit of a right shift comes from above, or is a zero that entered at bit 15 (R129). -/
theorem aluShiftr_getLsbD (a b : Word) (i : Nat) :
    (aluShiftr a b).getLsbD i = if i + b.toNat % 16 ≤ 15 then a.getLsbD (i + b.toNat % 16) else false := by
  rw [aluShiftr, shiftAmount, Config.shiftMod, BitVec.getLsbD_ushiftRight, Nat.add_comm]
  split
  · rfl
  · exact BitVec.getLsbD_of_ge _ _ (by omega)

/-- A shift by an amount that reduces to 0 is the identity (R127). -/
theorem shifts_of_amount_zero (a : Word) {b : Word} (h : b.toNat % 16 = 0) :
    aluShiftl a b = a ∧ aluShiftr a b = a := by
  simp [aluShiftl, aluShiftr, shiftAmount, Config.shiftMod, h]

/-! ### The statements -/

/-- Settles O6: the half adder by definition, the full adder by its truth table. -/
theorem addersAddTheirBits : Obligations.AddersAddTheirBits := by
  unfold Obligations.AddersAddTheirBits
  exact ⟨fun _ _ => rfl, by decide⟩

/-- Settles O10: the two shifts as numbers and bit by bit. -/
theorem shiftsAreLogicalModuloSixteen : Obligations.ShiftsAreLogicalModuloSixteen := by
  unfold Obligations.ShiftsAreLogicalModuloSixteen
  exact fun a b => ⟨aluShiftl_toNat a b, aluShiftr_toNat a b, shifts_of_amount_zero a,
    fun i hi => ⟨aluShiftl_getLsbD a b hi, aluShiftr_getLsbD a b i⟩⟩

/-- Settles O16: the formulas of the two conversions, and that each undoes the other. -/
theorem ioConversionsAreTwosComplement : Obligations.IoConversionsAreTwosComplement := by
  unfold Obligations.IoConversionsAreTwosComplement
  exact ⟨clamp16_eq_max_min, fun _ hlo hhi => ⟨enc16_toNat hlo hhi, dec16_enc16 hlo hhi⟩,
    fun w => ⟨dec16_eq_toInt w, enc16_dec16 w⟩⟩

/-- Settles O17: the bus by the class of the address; at 255 the second access starts from where the first left the
devices. -/
theorem portIsTheOnlySideEffect : Obligations.PortIsTheOnlySideEffect := by
  unfold Obligations.PortIsTheOnlySideEffect
  intro s a v
  have hport : (255#16).toNat = 255 := rfl
  refine ⟨fun h => ⟨_, s.memRead_ram h⟩, fun h => ⟨_, s.memWrite_ram v h, rfl, rfl, rfl⟩,
    fun h => ⟨s.memRead_illegal h, s.memWrite_illegal v h⟩, fun x y rest hp => ?_, ?_⟩
  · refine ⟨_, _, State.memRead_port hport hp, State.memRead_port hport rfl, rfl, ?_⟩
    simp
  · refine ⟨_, _, s.memWrite_port v hport, State.memWrite_port _ v hport, ?_⟩
    simp

end Sys2Proof.Machine

/-! What each instruction does and leaves unchanged (spec/42_arith_logic.md, spec/43_load_store.md,
spec/44_control.md, spec/60_exceptions.md R243): one frame lemma per state the instructions can leave, then the
statements by `exec`'s arms. -/

namespace Sys2Proof.Machine

/-! ### The frames of the states that instructions leave -/

/-- A write to register 0 changes no register (R23). -/
theorem sameRegs_of_writesOnlyReg_zero {v : Word} {s t : State} (h : WritesOnlyReg 0#4 v s t) : SameRegs s t := by
  obtain ⟨⟨-, honly⟩, -⟩ := h
  intro r
  by_cases hr : r = 0#4
  · rw [hr, State.readReg_zero, State.readReg_zero]
  · exact honly r hr

theorem writesOnlyReg_writeReg_advance (s : State) (d : Reg) (v : Word) :
    WritesOnlyReg d v s (s.writeReg d v).advance :=
  ⟨regGets_writeReg s d v, s.writeReg_nextPc d v, sameMemory_writeReg s d v, sameStatus_writeReg s d v,
    sameDevices_writeReg s d v, emitted_nil_writeReg s d v⟩

theorem onlyJumps_setPc (s : State) (target : Word) : OnlyJumps target s (s.setPc target) :=
  ⟨rfl, fun _ => rfl, fun _ => rfl, ⟨rfl, rfl⟩, ⟨rfl, rfl, rfl⟩, (List.append_nil _).symm⟩

/-- Going on to the next address is a jump there. -/
theorem onlyJumps_advance (s : State) : OnlyJumps (s.pc + 1#16) s s.advance := onlyJumps_setPc s s.nextPc

theorem loadsCell_writeReg_advance (s : State) (d : Reg) (a : Word) :
    LoadsCell d a s ((s.emit (.memRead a (s.cell a.toNat))).writeReg d (s.cell a.toNat)).advance :=
  ⟨regGets_writeReg (s.emit _) d _, by simp [State.nextPc], sameMemory_writeReg (s.emit _) d _,
    sameStatus_writeReg (s.emit _) d _, sameDevices_writeReg (s.emit _) d _, by simp [Emitted]⟩

theorem loadsInput_writeReg_advance (s : State) (d : Reg) (v : Int) (rest : List Int) :
    LoadsInput d v (enc16 (clamp16 v)) rest s ((s.takeInput v rest).writeReg d (enc16 (clamp16 v))).advance :=
  ⟨regGets_writeReg (s.takeInput v rest) d _, by simp [State.nextPc], sameMemory_writeReg (s.takeInput v rest) d _,
    sameStatus_writeReg (s.takeInput v rest) d _, by simp [TookInput], by simp [Emitted]⟩

theorem storesCell_setCell_advance (s : State) (a v : Word) :
    StoresCell a v s ((s.setCell a.toNat v).emit (.memWrite a v)).advance :=
  ⟨s.setCell_cell_self a.toNat v, onlyCell_setCell s a.toNat v, fun _ => rfl, rfl, ⟨rfl, rfl⟩, ⟨rfl, rfl, rfl⟩, rfl⟩

theorem sendsWord_sendOutput_advance (s : State) (w : Word) : SendsWord w (dec16 w) s (s.sendOutput w).advance :=
  ⟨sentOutput_sendOutput s w, fun _ => rfl, fun _ => rfl, rfl, ⟨rfl, rfl⟩, rfl⟩

theorem faulted_raiseIllegalAddress (s : State) (kind : AccessKind) (a : Word) :
    Faulted kind a s (s.raiseIllegalAddress kind a) :=
  ⟨rfl, rfl, rfl, fun _ => rfl, fun _ => rfl, ⟨rfl, rfl, rfl⟩, rfl⟩

/-- A branch goes to its target if the test holds, else on to the next address (R27). -/
theorem onlyJumps_branchIf (b : Bool) (addr : Addr8) (s : State) :
    ∃ t, branchIf b addr s = .next t ∧ OnlyJumps (if b then directTarget addr else s.pc + 1#16) s t := by
  rcases branchIf_cases b addr s with ⟨rfl, e⟩ | ⟨rfl, e⟩
  · exact ⟨_, e, onlyJumps_setPc s (directTarget addr)⟩
  · exact ⟨_, e, onlyJumps_advance s⟩

/-! ### Arithmetic, logic and shifts -/

/-- What the six ALU instructions share: they write their ALU function of the two sources (R179). -/
theorem aluOp_writesOnlyReg (f : Word → Word → Word) (d a b : Reg) (s : State) :
    ∃ t, aluOp f d a b s = .next t ∧ WritesOnlyReg d (f (s.readReg a) (s.readReg b)) s t :=
  ⟨_, rfl, writesOnlyReg_writeReg_advance s d _⟩

/-- Settles O18: the six are `aluOp` at their ALU functions. -/
theorem aluInstructionsWriteOnlyTheirDestination : Obligations.AluInstructionsWriteOnlyTheirDestination := by
  unfold Obligations.AluInstructionsWriteOnlyTheirDestination
  intro d a b s p hp
  have hexec : exec p.1 s = aluOp p.2 d a b s := by
    simp only [List.mem_cons, List.not_mem_nil, or_false] at hp
    rcases hp with rfl | rfl | rfl | rfl | rfl | rfl <;> rfl
  obtain ⟨t, ht, hw⟩ := aluOp_writesOnlyReg p.2 d a b s
  refine ⟨t, hexec.trans ht, hw, ?_, ?_, ?_⟩
  · rintro rfl
    exact sameRegs_of_writesOnlyReg_zero hw
  · rintro rfl
    exact s.readReg_zero
  · rintro rfl
    exact s.readReg_zero

/-- Settles O19: the ripple chain is the sum modulo 65536. -/
theorem addWritesModularSum : Obligations.AddWritesModularSum := by
  unfold Obligations.AddWritesModularSum
  exact fun d a b s => ⟨_, _, rfl, aluAdd_toNat _ _, writesOnlyReg_writeReg_advance s d _⟩

/-- Settles O20: the inverted ripple chain is the difference modulo 65536. -/
theorem subWritesModularDifference : Obligations.SubWritesModularDifference := by
  unfold Obligations.SubWritesModularDifference
  exact fun d a b s => ⟨_, _, rfl, aluSub_toNat _ _, writesOnlyReg_writeReg_advance s d _⟩

/-- Settles O21: the bit rules of And and Xor at the two destinations. -/
theorem andXorWriteBitwiseResults : Obligations.AndXorWriteBitwiseResults := by
  unfold Obligations.AndXorWriteBitwiseResults
  intro d a b s
  exact ⟨_, _, _, _, rfl, rfl, fun i _ => aluAnd_getLsbD _ _ i, fun i _ => aluXor_getLsbD _ _ i,
    writesOnlyReg_writeReg_advance s d _, writesOnlyReg_writeReg_advance s d _⟩

/-- Settles O22: the shifts as numbers at the two destinations. -/
theorem shlShrWriteShiftedValues : Obligations.ShlShrWriteShiftedValues := by
  unfold Obligations.ShlShrWriteShiftedValues
  intro d a b s
  exact ⟨_, _, _, _, rfl, rfl, aluShiftl_toNat _ _, aluShiftr_toNat _ _, writesOnlyReg_writeReg_advance s d _,
    writesOnlyReg_writeReg_advance s d _⟩

/-! ### Loads and stores -/

/-- Settles O23: the immediate is the field itself, and no bus access is made. -/
theorem loadaWritesZeroExtendedImmediate : Obligations.LoadaWritesZeroExtendedImmediate := by
  unfold Obligations.LoadaWritesZeroExtendedImmediate
  exact fun d addr s => ⟨_, _, rfl, zext16_toNat addr, writesOnlyReg_writeReg_advance s d _⟩

/-- Settles O24: LOAD and LOADI are one load at two addresses, here of RAM. -/
theorem loadsFromRamReadTheCell : Obligations.LoadsFromRamReadTheCell := by
  unfold Obligations.LoadsFromRamReadTheCell
  intro d r addr s
  have hload : ∀ a : Word, a.toNat ≤ 254 → ∃ t, loadWord d a s = .next t ∧ LoadsCell d a s t :=
    fun a ha => ⟨_, loadWord_ram d s ha, loadsCell_writeReg_advance s d a⟩
  exact ⟨hload (directAddress addr), hload (indirectAddress s r)⟩

/-- Settles O25: the same load at the port, with the word of the input value spelled out. -/
theorem loadsFromPortTakeOneInput : Obligations.LoadsFromPortTakeOneInput := by
  unfold Obligations.LoadsFromPortTakeOneInput
  intro d r addr s v rest hp
  have hload : ∀ a : Word, a.toNat = 255 →
      ∃ t, loadWord d a s = .next t ∧ LoadsInput d v (enc16 (clamp16 v)) rest s t :=
    fun a ha => ⟨_, loadWord_port d ha hp, loadsInput_writeReg_advance s d v rest⟩
  exact ⟨_, enc16_clamp16_toNat v, hload (directAddress addr), hload (indirectAddress s r)⟩

/-- Settles O26: the same load at the port, with no input supplied. -/
theorem loadsFromPortWaitForInput : Obligations.LoadsFromPortWaitForInput := by
  unfold Obligations.LoadsFromPortWaitForInput
  exact fun d r addr s hp => ⟨fun ha => loadWord_waiting d ha hp, fun ha => loadWord_waiting d ha hp⟩

/-- Settles O27: STOR and STORI are one store at two addresses, here to RAM. -/
theorem storesToRamWriteTheCell : Obligations.StoresToRamWriteTheCell := by
  unfold Obligations.StoresToRamWriteTheCell
  intro d r addr s a ha
  have hstore : ∃ t, storeWord a (s.readReg d) s = .next t ∧ StoresCell a (s.readReg d) s t :=
    ⟨_, storeWord_ram _ s ha, storesCell_setCell_advance s a _⟩
  constructor
  · rintro rfl
    exact hstore
  · rintro rfl
    exact hstore

/-- Settles O28: the same store at the port. -/
theorem storesToPortSendTheValue : Obligations.StoresToPortSendTheValue := by
  unfold Obligations.StoresToPortSendTheValue
  intro d r addr s
  have hstore : ∀ a : Word, a.toNat = 255 →
      ∃ t, storeWord a (s.readReg d) s = .next t ∧ SendsWord (s.readReg d) (dec16 (s.readReg d)) s t :=
    fun a ha => ⟨_, storeWord_port _ s ha, sendsWord_sendOutput_advance s _⟩
  exact ⟨_, rfl, hstore (directAddress addr), hstore (indirectAddress s r)⟩

/-- Settles O29: the same load and store beyond the port, where a direct address never is. -/
theorem indirectAccessBeyondThePortTraps : Obligations.IndirectAccessBeyondThePortTraps := by
  unfold Obligations.IndirectAccessBeyondThePortTraps
  intro d r addr s
  refine ⟨zext16_lt addr, fun ha => ⟨?_, ?_⟩⟩
  · exact ⟨_, loadWord_illegal d s ha, faulted_raiseIllegalAddress s .load (s.readReg r)⟩
  · exact ⟨_, storeWord_illegal (s.readReg d) s ha, faulted_raiseIllegalAddress s .store (s.readReg r)⟩

/-! ### Control -/

/-- Settles O30: HALT sets the status and emits its event. -/
theorem haltStopsExplicitly : Obligations.HaltStopsExplicitly := by
  unfold Obligations.HaltStopsExplicitly
  exact fun s => ⟨_, rfl, rfl, rfl, rfl, fun _ => rfl, fun _ => rfl, ⟨rfl, rfl, rfl⟩, rfl⟩

theorem readReg_zero_toNat (s : State) : (s.readReg 0).toNat = 0 := congrArg BitVec.toNat s.readReg_zero

/-- Settles O31: a branch whose test is that the register is zero; register 0 is. -/
theorem bzeroBranchesOnZero : Obligations.BzeroBranchesOnZero := by
  unfold Obligations.BzeroBranchesOnZero
  intro d addr s
  obtain ⟨t, ht, hj⟩ := onlyJumps_branchIf (decide (s.readReg d = 0#16)) addr s
  have hj' : OnlyJumps (if (s.readReg d).toNat = 0 then directTarget addr else s.pc + 1#16) s t := by
    simpa [← BitVec.toNat_inj] using hj
  have ⟨hpc, _⟩ := hj'
  refine ⟨t, directTarget addr, ht, zext16_toNat addr, hj', ?_⟩
  rintro rfl
  rw [hpc, if_pos (readReg_zero_toNat s)]

/-- Settles O32: a branch whose test is that the register is above zero as unsigned; register 0 is not. -/
theorem bposiBranchesOnNonzero : Obligations.BposiBranchesOnNonzero := by
  unfold Obligations.BposiBranchesOnNonzero
  intro d addr s
  obtain ⟨t, ht, hj⟩ := onlyJumps_branchIf (decide (0 < (s.readReg d).toNat)) addr s
  have hj' : OnlyJumps (if 0 < (s.readReg d).toNat then directTarget addr else s.pc + 1#16) s t := by
    simpa using hj
  have ⟨hpc, _⟩ := hj'
  refine ⟨t, directTarget addr, ht, zext16_toNat addr, hj', fun hbig => ?_, ?_⟩
  · rw [hpc, if_pos (by omega)]
  · rintro rfl
    rw [hpc, readReg_zero_toNat, if_neg (lt_irrefl 0)]

/-- Settles O33: the jump is to the register read. -/
theorem jmprJumpsToTheWholeRegister : Obligations.JmprJumpsToTheWholeRegister := by
  unfold Obligations.JmprJumpsToTheWholeRegister
  exact fun r s => ⟨_, rfl, onlyJumps_setPc s (s.readReg r)⟩

/-- Settles O34: a register write of the next address, then a jump. -/
theorem jmplLinksAndJumps : Obligations.JmplLinksAndJumps := by
  unfold Obligations.JmplLinksAndJumps
  intro d addr s
  exact ⟨_, rfl, zext16_toNat addr, regGets_writeReg s d _, sameMemory_writeReg s d _, sameStatus_writeReg s d _,
    sameDevices_writeReg s d _, emitted_nil_writeReg s d _⟩

/-- Settles O35: the link register is not register 0, so the jump reads what the JMPL wrote. -/
theorem jmprReturnsFromJmpl : Obligations.JmprReturnsFromJmpl := by
  unfold Obligations.JmprReturnsFromJmpl
  intro d addr s hd
  refine ⟨_, _, rfl, rfl, ?_, fun _ => rfl⟩
  calc (s.writeReg d s.nextPc).readReg d
      = if d = 0#4 then 0#16 else s.nextPc := s.readReg_writeReg_self d s.nextPc
    _ = s.pc + 1#16 := if_neg hd

end Sys2Proof.Machine

/-! The step through its fetch (spec/41_cpu_cycle_and_interfaces.md R151 to R161; spec/20_memory.md R68, R69). -/

namespace Sys2Proof.Machine

/-! ### The fetch and the wait -/

theorem fetchDecode_port {s : State} {v : Int} {rest : List Int} (h : s.pc.toNat = 255)
    (hp : s.pending = v :: rest) :
    fetchDecode s =
      .instr (decode (enc16 (clamp16 v))) (fetched s (s.takeInput v rest) (enc16 (clamp16 v))) := by
  simp [fetchDecode, State.memRead_port h hp]

/-- Awaiting input does not depend on the trace. -/
theorem awaitsInput_emit (i : Instr) (s : State) (e : Event) : awaitsInput i (s.emit e) = awaitsInput i s := by
  cases i <;> rfl

/-- A step that is not enabled leaves the state as it was (R69). -/
theorem step_of_stepWaits {s : State} (hs : s.run = .running) (hw : stepWaits s = true) : step s = .next s := by
  rw [step_running hs]
  cases hf : fetchDecode s with
  | waiting => rfl
  | illegal => simp [stepWaits, hs, hf] at hw
  | instr i s' =>
    have ha : awaitsInput i s' = true := by simpa [stepWaits, hs, hf] using hw
    simp [ha]

/-! ### The trace only grows (R161) -/

theorem Effect.trace_grows {i : Instr} {s t : State} (h : Effect i s t) : s.trace <+: t.trace := by
  cases h <;> simp

/-- Every step that executes an instruction or takes the exception adds to the trace. -/
theorem StepEffect.waits_of_same_trace {s t : State} (hs : s.run = .running) (h : StepEffect s t)
    (ht : t.trace = s.trace) : stepWaits s = true := by
  cases h with
  | halted h => rw [hs] at h; cases h
  | waits _ hw => exact hw
  | fetchFault => simp at ht
  | fromRam _ _ _ _ he =>
    have hlen := he.trace_grows.length_le
    rw [ht] at hlen
    simp at hlen
  | fromPort _ v rest _ _ _ _ he =>
    have hlen := he.trace_grows.length_le
    rw [ht] at hlen
    simp at hlen

/-! ### The statements on one step -/

/-- Settles O36: the fetch from RAM adds its event alone, which no instruction's wait depends on. -/
theorem stepRunsTheDecodedInstruction : Obligations.StepRunsTheDecodedInstruction := by
  unfold Obligations.StepRunsTheDecodedInstruction
  rintro s i hs hpc rfl
  rw [step_running hs, fetchDecode_ram hpc]
  simp only [awaitsInput_emit]

/-- Settles O38: the fetch from the port is one input call and the fetch event. -/
theorem fetchFromPortExecutesTheInput : Obligations.FetchFromPortExecutesTheInput := by
  unfold Obligations.FetchFromPortExecutesTheInput
  intro s v rest hs hpc hp
  refine ⟨enc16 (clamp16 v), fetched s (s.takeInput v rest) (enc16 (clamp16 v)), enc16_clamp16_toNat v,
    ⟨rfl, rfl, rfl⟩, fun _ => rfl, fun _ => rfl, ⟨rfl, rfl⟩, rfl, ?_, ?_⟩
  · simp [Emitted]
  · rw [step_running hs, fetchDecode_port hpc hp]

/-- Settles O39: the step is the exception at the fetch. -/
theorem fetchBeyondThePortTraps : Obligations.FetchBeyondThePortTraps := by
  unfold Obligations.FetchBeyondThePortTraps
  exact fun s hs hpc => ⟨_, step_fetch_illegal hs hpc, faulted_raiseIllegalAddress s .fetch s.pc⟩

/-- Settles O40: a step that does not wait emits an event. -/
theorem onlyAWaitingStepChangesNothing : Obligations.OnlyAWaitingStepChangesNothing := by
  unfold Obligations.OnlyAWaitingStepChangesNothing
  exact fun s hs => ⟨fun h => (effect_of_step h).waits_of_same_trace hs rfl, step_of_stepWaits hs⟩

/-- Settles O44: each step and each instruction answers by one of its effects. -/
theorem everyStepAnswersANextState : Obligations.EveryStepAnswersANextState := by
  unfold Obligations.EveryStepAnswersANextState
  constructor
  · intro s
    obtain ⟨t, ht, -⟩ := step_effect s
    exact ⟨t, ht⟩
  · intro i s
    obtain ⟨t, ht, -⟩ := exec_effect i s
    exact ⟨t, ht⟩

/-- STOR to a RAM address stores its register in that cell (R192). -/
theorem exec_stor_ram (d : Reg) {addr : Addr8} (s : State) (h : (directAddress addr).toNat ≤ 254) :
    ∃ t, exec (.stor d addr) s = .next t ∧ StoresCell (directAddress addr) (s.readReg d) s t :=
  ⟨_, storeWord_ram _ s h, storesCell_setCell_advance s _ _⟩

/-- Settles O54: the store changes the cell at the next pc, and the next fetch reads that cell. -/
theorem storeIsSeenByTheNextFetch : Obligations.StoreIsSeenByTheNextFetch := by
  unfold Obligations.StoreIsSeenByTheNextFetch
  intro s d addr hs hpc haddr hdec
  have htarget : (directAddress addr).toNat = s.pc.toNat + 1 := (zext16_toNat addr).trans haddr
  have hram : (directAddress addr).toNat ≤ 254 := by omega
  obtain ⟨t, ht, hcell, -, hregs, hnext, ⟨hrun, -⟩, -⟩ :=
    exec_stor_ram d (fetched s s (s.cell s.pc.toNat)) hram
  have hpc' : t.pc.toNat = s.pc.toNat + 1 := by
    rw [hnext]
    exact s.nextPc_toNat (show s.pc.toNat ≤ 255 by omega)
  have hstep : step s = .next t := by
    rw [step_running hs, fetchDecode_ram (by omega), hdec]
    exact ht
  refine ⟨t, fetched t t (t.cell t.pc.toNat), hstep, hrun.trans hs, hpc'.trans haddr.symm, ?_, hregs⟩
  rw [fetchDecode_ram (by omega), hpc', ← htarget, hcell]
  rfl

end Sys2Proof.Machine

/-! No step reads the trace (spec/41_cpu_cycle_and_interfaces.md R161): two runs that differ in the trace alone do the
same to everything else and emit the same events. The setting of the trace commutes with every state operation. -/

namespace Sys2Proof.Machine

/-- The state with another trace. -/
def State.setTrace (s : State) (tr : List Event) : State := { s with trace := tr }

@[simp] theorem State.setTrace_pc (s : State) (tr : List Event) : (s.setTrace tr).pc = s.pc := rfl
@[simp] theorem State.setTrace_pending (s : State) (tr : List Event) : (s.setTrace tr).pending = s.pending := rfl
@[simp] theorem State.setTrace_nextPc (s : State) (tr : List Event) : (s.setTrace tr).nextPc = s.nextPc := rfl
@[simp] theorem State.setTrace_cell (s : State) (tr : List Event) (a : Nat) : (s.setTrace tr).cell a = s.cell a := rfl
@[simp] theorem State.setTrace_readReg (s : State) (tr : List Event) (r : Reg) :
    (s.setTrace tr).readReg r = s.readReg r := rfl
@[simp] theorem State.setTrace_setPc (s : State) (tr : List Event) (v : Word) :
    (s.setTrace tr).setPc v = (s.setPc v).setTrace tr := rfl
@[simp] theorem State.setTrace_advance (s : State) (tr : List Event) :
    (s.setTrace tr).advance = s.advance.setTrace tr := rfl
@[simp] theorem State.setTrace_setCell (s : State) (tr : List Event) (a : Nat) (v : Word) :
    (s.setTrace tr).setCell a v = (s.setCell a v).setTrace tr := rfl
@[simp] theorem State.setTrace_writeReg (s : State) (tr : List Event) (d : Reg) (v : Word) :
    (s.setTrace tr).writeReg d v = (s.writeReg d v).setTrace tr := by
  unfold State.writeReg; split <;> rfl
@[simp] theorem State.setTrace_emit (s : State) (tr : List Event) (e : Event) :
    (s.setTrace tr).emit e = (s.emit e).setTrace (tr ++ [e]) := rfl
@[simp] theorem State.setTrace_takeInput (s : State) (tr : List Event) (v : Int) (rest : List Int) :
    (s.setTrace tr).takeInput v rest =
      (s.takeInput v rest).setTrace (tr ++ [.input v (enc16 (clamp16 v))]) := rfl
@[simp] theorem State.setTrace_sendOutput (s : State) (tr : List Event) (w : Word) :
    (s.setTrace tr).sendOutput w = (s.sendOutput w).setTrace (tr ++ [.output w (dec16 w)]) := rfl
@[simp] theorem State.setTrace_halt (s : State) (tr : List Event) (c : HaltCause) :
    (s.setTrace tr).halt c = (s.halt c).setTrace (tr ++ [.halt c]) := rfl
@[simp] theorem State.setTrace_raiseIllegalAddress (s : State) (tr : List Event) (k : AccessKind) (a : Word) :
    (s.setTrace tr).raiseIllegalAddress k a =
      (s.raiseIllegalAddress k a).setTrace (tr ++ [.halt (.addressFault k a)]) := rfl

/-- From `s` the outcome `o`, and from `s` with trace `tr` the outcome `p`, are next states that agree in everything
but the trace, and the events `es` were emitted on both sides. -/
def AgreeButTrace (s : State) (tr : List Event) (o p : Host.Outcome State Fault Refusal) : Prop :=
  ∃ t es, o = .next t ∧ t.trace = s.trace ++ es ∧ p = .next (t.setTrace (tr ++ es))

theorem agreeButTrace_silent {s t : State} (tr : List Event) (h : t.trace = s.trace) :
    AgreeButTrace s tr (.next t) (.next (t.setTrace tr)) :=
  ⟨t, [], rfl, by simp [h], by simp⟩

theorem agreeButTrace_event {s t : State} (tr : List Event) (e : Event) (h : t.trace = s.trace ++ [e]) :
    AgreeButTrace s tr (.next t) (.next (t.setTrace (tr ++ [e]))) :=
  ⟨t, [e], rfl, h, rfl⟩

theorem agreeButTrace_aluOp (f : Word → Word → Word) (d a b : Reg) (s : State) (tr : List Event) :
    AgreeButTrace s tr (aluOp f d a b s) (aluOp f d a b (s.setTrace tr)) := by
  simp only [aluOp, State.setTrace_readReg, State.setTrace_writeReg, State.setTrace_advance]
  exact agreeButTrace_silent tr (by simp)

theorem agreeButTrace_branchIf (b : Bool) (addr : Addr8) (s : State) (tr : List Event) :
    AgreeButTrace s tr (branchIf b addr s) (branchIf b addr (s.setTrace tr)) := by
  cases b <;> exact agreeButTrace_silent tr rfl

theorem agreeButTrace_loadWord (d : Reg) (a : Word) (s : State) (tr : List Event) :
    AgreeButTrace s tr (loadWord d a s) (loadWord d a (s.setTrace tr)) := by
  rcases loadWord_cases d a s with ⟨h, e⟩ | ⟨v, rest, h, hp, e⟩ | ⟨h, hp, e⟩ | ⟨h, e⟩ <;> rw [e]
  · rw [loadWord_ram d _ h]
    simpa using agreeButTrace_event tr (.memRead a (s.cell a.toNat)) (by simp)
  · rw [loadWord_port d h (s.setTrace_pending tr ▸ hp)]
    simpa using agreeButTrace_event tr (.input v (enc16 (clamp16 v))) (by simp)
  · rw [loadWord_waiting d h (s.setTrace_pending tr ▸ hp)]
    exact agreeButTrace_silent tr rfl
  · rw [loadWord_illegal d _ h]
    exact agreeButTrace_event tr (.halt (.addressFault .load a)) rfl

theorem agreeButTrace_storeWord (a v : Word) (s : State) (tr : List Event) :
    AgreeButTrace s tr (storeWord a v s) (storeWord a v (s.setTrace tr)) := by
  rcases storeWord_cases a v s with ⟨h, e⟩ | ⟨h, e⟩ | ⟨h, e⟩ <;> rw [e]
  · rw [storeWord_ram v _ h]
    exact agreeButTrace_event tr (.memWrite a v) rfl
  · rw [storeWord_port v _ h]
    exact agreeButTrace_event tr (.output v (dec16 v)) rfl
  · rw [storeWord_illegal v _ h]
    exact agreeButTrace_event tr (.halt (.addressFault .store a)) rfl

/-- No instruction reads the trace. -/
theorem agreeButTrace_exec (i : Instr) (s : State) (tr : List Event) :
    AgreeButTrace s tr (exec i s) (exec i (s.setTrace tr)) := by
  cases i with
  | halt => exact agreeButTrace_event tr (.halt .explicit) rfl
  | add d a b => exact agreeButTrace_aluOp aluAdd d a b s tr
  | sub d a b => exact agreeButTrace_aluOp aluSub d a b s tr
  | and d a b => exact agreeButTrace_aluOp aluAnd d a b s tr
  | xor d a b => exact agreeButTrace_aluOp aluXor d a b s tr
  | shl d a b => exact agreeButTrace_aluOp aluShiftl d a b s tr
  | shr d a b => exact agreeButTrace_aluOp aluShiftr d a b s tr
  | loada d addr => simpa [exec, execLoada] using agreeButTrace_silent tr (by simp)
  | load d addr => exact agreeButTrace_loadWord d _ s tr
  | stor d addr => exact agreeButTrace_storeWord _ (s.readReg d) s tr
  | loadi d t => exact agreeButTrace_loadWord d (s.readReg t) s tr
  | stori d t => exact agreeButTrace_storeWord (s.readReg t) (s.readReg d) s tr
  | bzero d addr => exact agreeButTrace_branchIf (decide (s.readReg d = 0#16)) addr s tr
  | bposi d addr => exact agreeButTrace_branchIf (decide (0 < (s.readReg d).toNat)) addr s tr
  | jmpr t => exact agreeButTrace_silent tr rfl
  | jmpl d addr => simpa [exec, execJmpl] using agreeButTrace_silent tr (by simp)

/-! ### The step -/

theorem awaitsInput_setTrace (i : Instr) (s : State) (tr : List Event) :
    awaitsInput i (s.setTrace tr) = awaitsInput i s := by
  cases i <;> rfl

theorem fetchDecode_waiting_iff (s : State) :
    fetchDecode s = .waiting ↔ s.pc.toNat = 255 ∧ s.pending = [] := by
  refine ⟨fun h => ?_, fun ⟨hpc, hp⟩ => by simp [fetchDecode, State.memRead_waiting hpc hp]⟩
  rcases fetchDecode_cases s with ⟨-, e⟩ | ⟨_, _, -, -, e⟩ | ⟨hpc, hp, -⟩ | ⟨-, e⟩
  · cases e.symm.trans h
  · cases e.symm.trans h
  · exact ⟨hpc, hp⟩
  · cases e.symm.trans h

/-- A fetch answers the same instruction whatever the trace, and emits the same events. -/
theorem fetchDecode_setTrace {s s' : State} {i : Instr} (h : fetchDecode s = .instr i s') (tr : List Event) :
    ∃ es, s'.trace = s.trace ++ es ∧ fetchDecode (s.setTrace tr) = .instr i (s'.setTrace (tr ++ es)) := by
  rcases fetchDecode_cases s with ⟨hpc, e⟩ | ⟨v, rest, hpc, hp, e⟩ | ⟨-, -, e⟩ | ⟨-, e⟩ <;> cases e.symm.trans h
  · have hpc' : (s.setTrace tr).pc.toNat ≤ 254 := hpc
    exact ⟨[_], rfl, fetchDecode_ram hpc'⟩
  · refine ⟨[_, _], List.append_assoc _ _ _, ?_⟩
    have hpc' : (s.setTrace tr).pc.toNat = 255 := hpc
    have hp' : (s.setTrace tr).pending = v :: rest := hp
    rw [fetchDecode_port hpc' hp']
    simp

theorem agreeButTrace_step (s : State) (tr : List Event) : AgreeButTrace s tr (step s) (step (s.setTrace tr)) := by
  cases hs : s.run with
  | halted =>
    have hs' : (s.setTrace tr).run = .halted := hs
    rw [step_halted hs, step_halted hs']
    exact agreeButTrace_silent tr rfl
  | running =>
    have hs' : (s.setTrace tr).run = .running := hs
    rw [step_running hs, step_running hs']
    cases hf : fetchDecode s with
    | illegal =>
      have hpc : 256 ≤ s.pc.toNat := pc_of_fetchDecode_illegal hf
      have hf' : fetchDecode (s.setTrace tr) = .illegal := fetchDecode_illegal (show 256 ≤ s.pc.toNat from hpc)
      rw [hf']
      exact agreeButTrace_event tr _ rfl
    | waiting =>
      have hf' : fetchDecode (s.setTrace tr) = .waiting :=
        (fetchDecode_waiting_iff _).2 ((fetchDecode_waiting_iff s).1 hf)
      rw [hf']
      exact agreeButTrace_silent tr rfl
    | instr i s' =>
      obtain ⟨es, htrace, hf'⟩ := fetchDecode_setTrace hf tr
      simp only [hf', awaitsInput_setTrace]
      split
      · exact agreeButTrace_silent tr rfl
      · obtain ⟨t, fs, ht, htrace', hu⟩ := agreeButTrace_exec i s' (tr ++ es)
        exact ⟨t, es ++ fs, ht, by rw [htrace', htrace, List.append_assoc], by rw [hu, List.append_assoc]⟩

/-- Settles O53: setting the trace commutes with the step, up to the events emitted. -/
theorem traceNeverInfluencesTheMachine : Obligations.TraceNeverInfluencesTheMachine := by
  unfold Obligations.TraceNeverInfluencesTheMachine
  intro s tr
  obtain ⟨t, es, ht, htrace, hu⟩ := agreeButTrace_step s tr
  exact ⟨t, t.setTrace (tr ++ es), es, ht, hu, htrace, rfl⟩

end Sys2Proof.Machine

/-! Reset, launch and the image file (spec/70_reset_and_hazards.md R270 to R272). -/

namespace Sys2Proof.Machine

/-! ### The image in memory (R271) -/

/-- Storing an image from cell `a` on puts its words there and keeps every other cell. -/
theorem readCell_storeImage (img : List Word) (m : Memory) (a b : Nat) :
    (storeImage m a img).readCell b = if a ≤ b ∧ b < a + img.length then img.getD (b - a) 0 else m.readCell b := by
  induction img generalizing m a with
  | nil => simp [storeImage]
  | cons w ws ih =>
    rw [storeImage, ih, Memory.readCell_writeCell, List.length_cons]
    rcases Nat.lt_trichotomy b a with h | rfl | h
    · simp [h.ne, show ¬a + 1 ≤ b by omega, show ¬a ≤ b by omega]
    · simp
    · obtain ⟨k, rfl⟩ := Nat.exists_eq_add_of_lt h
      have hne : a + k + 1 ≠ a := by omega
      have hrange : (a + 1 ≤ a + k + 1 ∧ a + k + 1 < a + 1 + ws.length) ↔
          (a ≤ a + k + 1 ∧ a + k + 1 < a + (ws.length + 1)) := by omega
      have hrest : a + k + 1 - (a + 1) = k := by omega
      have hwhole : a + k + 1 - a = k + 1 := by omega
      simp only [hrange, hne, hrest, hwhole, if_false, List.getD_cons_succ]

/-- Storing an image inside the cells keeps the canonical form. -/
theorem wf_storeImage (img : List Word) {m : Memory} {a : Nat} (hm : m.wf) (h : a + img.length ≤ Config.memWords) :
    (storeImage m a img).wf := by
  induction img generalizing m a with
  | nil => exact hm
  | cons w ws ih =>
    rw [List.length_cons] at h
    exact ih (Memory.wf_writeCell hm (by omega) w) (by omega)

/-- At reset every register reads 0. -/
theorem reset_readReg (r : Reg) : State.reset.readReg r = 0#16 := by
  simp [State.readReg, State.reset]

/-- At reset every cell reads 0. -/
theorem reset_cell (a : Nat) : State.reset.cell a = 0#16 := by
  simp [State.cell, Memory.readCell, State.reset, Memory.readByte, Config.unlistedByte]

/-! ### The image file (R272) -/

/-- A word's high and low bytes, as numbers, make the word. -/
theorem bytes_append_eq (w : Word) : BitVec.ofNat 8 (w.toNat / 256) ++ BitVec.ofNat 8 (w.toNat % 256) = w := by
  have hw := w.isLt
  apply BitVec.eq_of_toNat_eq
  rw [toNat_append_eq_add, BitVec.toNat_ofNat, BitVec.toNat_ofNat]
  omega

/-- A file is read exactly if its length is even (R272, U7). -/
theorem fileWords_isSome (bytes : List Byte) : (fileWords bytes).isSome = fileWhole bytes := by
  induction bytes using fileWords.induct with
  | case1 => rfl
  | case2 => rfl
  | case3 hi lo rest ih =>
    have hparity : (rest.length + 1 + 1) % 2 = rest.length % 2 := by omega
    simpa [fileWords, fileWhole, hparity] using ih

/-! ### The statements -/

/-- Settles O55: the reset state's own fields, and reads of an empty memory. -/
theorem resetValues : Obligations.ResetValues := by
  unfold Obligations.ResetValues
  exact ⟨reset_readReg, reset_cell, rfl, rfl, rfl, rfl, rfl, rfl, rfl⟩

/-- Settles O56: the image's cells by `readCell_storeImage`; 239 words from cell 16 on end below cell 255. -/
theorem launchPlacesTheImage : Obligations.LaunchPlacesTheImage := by
  unfold Obligations.LaunchPlacesTheImage
  intro img
  constructor
  · intro hlen
    have hfits : imageFits img = true := decide_eq_true hlen
    refine ⟨{ State.reset with mem := storeImage State.reset.mem Config.loadAddr img }, ?_, ?_, ?_, rfl⟩
    · rw [State.launch, if_pos hfits]
    · intro a
      have hcell := readCell_storeImage img State.reset.mem Config.loadAddr a
      rwa [show State.reset.mem.readCell a = 0 from reset_cell a] at hcell
    · exact wf_storeImage img Memory.wf_reset (show 16 + img.length ≤ 255 by omega)
  · intro hlen
    have hlong : imageFits img = false := decide_eq_false (show ¬img.length ≤ 239 by omega)
    simp [State.launch, hlong]

/-- Settles O57: each pair of bytes is read back as its word; the rest by the recursion of `fileWords`. -/
theorem imageFileIsBigEndianWords : Obligations.ImageFileIsBigEndianWords := by
  unfold Obligations.ImageFileIsBigEndianWords
  refine ⟨fun img => ?_, fileWords_isSome⟩
  induction img with
  | nil => rfl
  | cons w ws ih =>
    simp only [List.flatMap_cons, List.cons_append, List.nil_append, fileWords, ih, bytes_append_eq, Option.map_some]

end Sys2Proof.Machine
